-- ==== Sys2Proof/Word.lean ====
section
/-! DEFINITION. The word and the byte. A word is an unsigned 16-bit integer (00_scope.md R5, R7); a byte occurs
only in the program image (20_memory.md R51) and in the way the model lists memory. -/

namespace Sys2Proof

/-- A word: an unsigned 16-bit integer, 0..=65535 (00_scope.md R5 `WordBits`, R7). -/
abbrev Word := BitVec 16

/-- A byte of the program image (70_reset_and_hazards.md R351). -/
abbrev Byte := BitVec 8

end Sys2Proof
end

