-- ==== Sys2Proof/Config.lean ====
section
/-! DEFINITION. The parameters of the core (00_scope.md R5) and what the spec leaves open (R6). The opaque
constants have no value anybody can prove: a statement that holds of the model holds for all of them. -/

namespace Sys2Proof.Config

/-- `NumRegs`: general registers 0..=7 (00_scope.md R5). -/
abbrev numRegs : Nat := 8

/-- `MemWords`: memory cells 0..=32767 (00_scope.md R5). -/
abbrev memWords : Nat := 32768

/-- `LitMax`: the largest literal operand (00_scope.md R5; C1 reads the range as inclusive). -/
abbrev litMax : Nat := 32767

/-- `RegBase`: the operand word `RegBase + i` names register i (00_scope.md R5). -/
abbrev regBase : Nat := 32768

/-- `MaxLegalWord`: the largest legal operand word (00_scope.md R5). -/
abbrev maxLegalWord : Nat := 32775

/-- `MaxInstrWords`: an opcode word and at most 3 operand words (00_scope.md R5). -/
abbrev maxInstrWords : Nat := 4

/-- `ArithModulus`: add and mult reduce modulo this (00_scope.md R5). -/
abbrev arithModulus : Nat := 32768

/-- `NotMask`: not is masked to 15 bits (00_scope.md R5). -/
abbrev notMask : Word := 0x7FFF

/-- `resetPc` (00_scope.md R6, D1). -/
abbrev resetPc : Word := 0

/-- The default of the open parameter `stackLimit` (10_state.md R29): unbounded. The limit itself is a field of
State, so that every statement covers every value of it (log entry 7). -/
abbrev defaultStackLimit : Option Nat := none

/-- What a byte of memory that nothing has written reads as: memory beyond the image is zero
(10_state.md R30, 70_reset_and_hazards.md R353, D2). -/
abbrev unlistedByte : Byte := 0

/-- DESIGN CHOICE (log entry 6): the escape marker of the terminal at reset. The spec leaves `escapeMarker` open
(00_scope.md R6, 60_exceptions.md R334) and says to assume no particular string, so it has no value here. -/
opaque escapeMarker : List Char

/-- DESIGN CHOICE (log entry 5): `charCode` of a character beyond ASCII. The spec leaves it to the parameter
(00_scope.md R6, D13), so it has no value here. -/
opaque charCodeBeyondAscii : Char → Word

end Sys2Proof.Config
end

