-- ==== Sys2Proof/Syntax.lean ====
section
/-! DEFINITION. The instructions, one constructor per row of spec/opcode_table.json (30_encoding.md R90), and
their operands (30_encoding.md R83). -/

namespace Sys2Proof

/-- A register number, 0..=7 (10_state.md R21). -/
abbrev Reg := Fin Config.numRegs

/-- A decoded operand word (30_encoding.md R83, R84). A literal is meaningful up to `LitMax`; `Operand.wellFormed`
checks it. -/
inductive Operand where
  /-- `Literal(v)`, v in 0..=32767. -/
  | lit (v : Word)
  /-- `Register(i)`, i in 0..=7. -/
  | reg (r : Reg)
  deriving DecidableEq, Repr

/-- The 22 instructions of 30_encoding.md R90, with their operands a, b, c in the order of the words. A `reg`
position takes a literal too (30_encoding.md R88), so every operand is an `Operand`. -/
inductive Instr where
  /-- 0 halt (41_system.md R150). -/
  | halt
  /-- 1 set a:reg b:val (42_move_stack.md R160). -/
  | set (a b : Operand)
  /-- 2 push a:val (42_move_stack.md R161). -/
  | push (a : Operand)
  /-- 3 pop a:reg (42_move_stack.md R162). -/
  | pop (a : Operand)
  /-- 4 eq a:reg b:val c:val (43_compare.md R180). -/
  | eq (a b c : Operand)
  /-- 5 gt a:reg b:val c:val (43_compare.md R181). -/
  | gt (a b c : Operand)
  /-- 6 jmp a:val (44_control_transfer.md R190). -/
  | jmp (a : Operand)
  /-- 7 jt a:val b:val (44_control_transfer.md R191). -/
  | jt (a b : Operand)
  /-- 8 jf a:val b:val (44_control_transfer.md R192). -/
  | jf (a b : Operand)
  /-- 9 add a:reg b:val c:val (45_arith_logic.md R210). -/
  | add (a b c : Operand)
  /-- 10 mult a:reg b:val c:val (45_arith_logic.md R211). -/
  | mult (a b c : Operand)
  /-- 11 mod a:reg b:val c:val (45_arith_logic.md R212). -/
  | mod (a b c : Operand)
  /-- 12 and a:reg b:val c:val (45_arith_logic.md R213). -/
  | and (a b c : Operand)
  /-- 13 or a:reg b:val c:val (45_arith_logic.md R214). -/
  | or (a b c : Operand)
  /-- 14 not a:reg b:val (45_arith_logic.md R215). -/
  | not (a b : Operand)
  /-- 15 rmem a:reg b:val (46_memory_access.md R240). -/
  | rmem (a b : Operand)
  /-- 16 wmem a:val b:val (46_memory_access.md R241). -/
  | wmem (a b : Operand)
  /-- 17 call a:val (44_control_transfer.md R193). -/
  | call (a : Operand)
  /-- 18 ret (44_control_transfer.md R194). -/
  | ret
  /-- 19 out a:val (47_io.md R250). -/
  | out (a : Operand)
  /-- 20 in a:reg (47_io.md R252); `in` is a word of Lean, so the constructor is `inp`. -/
  | inp (a : Operand)
  /-- 21 noop (41_system.md R151). -/
  | noop
  deriving DecidableEq, Repr

/-- The operands in the order of their words (30_encoding.md R81, R90). -/
def Instr.operands : Instr → List Operand
  | .halt | .ret | .noop => []
  | .push a | .pop a | .jmp a | .call a | .out a | .inp a => [a]
  | .set a b | .jt a b | .jf a b | .not a b | .rmem a b | .wmem a b => [a, b]
  | .eq a b c | .gt a b c | .add a b c | .mult a b c | .mod a b c | .and a b c | .or a b c => [a, b, c]

/-- The destination operand, the `a:reg` of 30_encoding.md R90; none where the row has no `reg` operand
(10_state.md R22). -/
def Instr.dest : Instr → Option Operand
  | .set a _ | .pop a | .eq a _ _ | .gt a _ _ | .add a _ _ | .mult a _ _ | .mod a _ _ | .and a _ _ | .or a _ _
  | .not a _ | .rmem a _ | .inp a => some a
  | .halt | .push _ | .jmp _ | .jt _ _ | .jf _ _ | .wmem _ _ | .call _ | .ret | .out _ | .noop => none

/-- The encoded size in words, 1 + operand count (30_encoding.md R80). -/
def Instr.size (i : Instr) : Nat := 1 + i.operands.length

end Sys2Proof
end

