-- ==== Sys2Proof/WellFormed.lean ====
section
/-! DEFINITION. Which terms of `Instr` stand for an instruction of the machine: every literal is one that an
operand word can spell (30_encoding.md R83, R84). A register number is always well-formed: its type bounds it. -/

namespace Sys2Proof

/-- A literal operand is 0..=32767 (30_encoding.md R83; C1). -/
def Operand.wellFormed : Operand → Bool
  | .lit v => decide (v.toNat ≤ Config.litMax)
  | .reg _ => true

/-- Every operand, whatever its position, is well-formed (30_encoding.md R88: a `reg` position takes every legal
operand word). -/
def Instr.wellFormed (i : Instr) : Bool := i.operands.all Operand.wellFormed

end Sys2Proof
end

