-- ==== Sys2Proof/Decode.lean ====
section
/-! DEFINITION. The one decoder (30_encoding.md R91) and, after it, the encoder (R94), with the byte order of the
image (20_memory.md R51). Decoding is total on any list of words, and on any list of bytes; it refuses by name. -/

namespace Sys2Proof

/-! ### Byte order -/

/-- A word from its low and its high byte (70_reset_and_hazards.md R351: word k is `b[2k] + 256 * b[2k+1]`). -/
def ofLoHi (lo hi : Byte) : Word := hi ++ lo

/-- The low byte of a word. -/
def loByte (w : Word) : Byte := w.extractLsb' 0 8

/-- The high byte of a word. -/
def hiByte (w : Word) : Byte := w.extractLsb' 8 8

/-- The words of a little-endian sequence of bytes (70_reset_and_hazards.md R351); a last odd byte is no word. -/
def wordsOfBytes : List Byte → List Word
  | lo :: hi :: rest => ofLoHi lo hi :: wordsOfBytes rest
  | _ => []

/-! ### Decoding -/

/-- Why a sequence of words is no instruction, in the order 30_encoding.md R91 checks. -/
inductive DecodeError where
  /-- There is no word k (counted from the opcode, word 0): the words end before it. -/
  | truncated (k : Nat)
  /-- The opcode word is 22..=65535 (30_encoding.md R93). -/
  | invalidOpcode (w : Word)
  /-- The k-th operand word is 32776..=65535 (30_encoding.md R93). -/
  | invalidOperand (k : Nat) (w : Word)
  deriving DecidableEq, Repr

/-- `decode_operand(w)` (30_encoding.md R84); none is `InvalidOperand`. -/
def decodeOperand (w : Word) : Option Operand :=
  if w.toNat ≤ Config.litMax then some (.lit w)
  else if h : w.toNat ≤ Config.maxLegalWord then
    some (.reg ⟨w.toNat - Config.regBase, by simp only [Config.maxLegalWord, Config.regBase, Config.numRegs] at *; omega⟩)
  else none

/-- A row of the opcode map: its format (30_encoding.md R81) and the instruction its operands make. -/
inductive Row where
  | f0 (i : Instr)
  | f1 (mk : Operand → Instr)
  | f2 (mk : Operand → Operand → Instr)
  | f3 (mk : Operand → Operand → Operand → Instr)

/-- The opcode map (30_encoding.md R90); none is an illegal opcode (R82, R93). -/
def opcodeRow : Nat → Option Row
  | 0 => some (.f0 .halt)
  | 1 => some (.f2 .set)
  | 2 => some (.f1 .push)
  | 3 => some (.f1 .pop)
  | 4 => some (.f3 .eq)
  | 5 => some (.f3 .gt)
  | 6 => some (.f1 .jmp)
  | 7 => some (.f2 .jt)
  | 8 => some (.f2 .jf)
  | 9 => some (.f3 .add)
  | 10 => some (.f3 .mult)
  | 11 => some (.f3 .mod)
  | 12 => some (.f3 .and)
  | 13 => some (.f3 .or)
  | 14 => some (.f2 .not)
  | 15 => some (.f2 .rmem)
  | 16 => some (.f2 .wmem)
  | 17 => some (.f1 .call)
  | 18 => some (.f0 .ret)
  | 19 => some (.f1 .out)
  | 20 => some (.f1 .inp)
  | 21 => some (.f0 .noop)
  | _ => none

/-- The operand count n of a row (30_encoding.md R81). -/
def Row.operandCount : Row → Nat
  | .f0 _ => 0
  | .f1 _ => 1
  | .f2 _ => 2
  | .f3 _ => 3

/-- The k-th operand word: present, and legal (30_encoding.md R91, the body of the loop over k). -/
def operandAt (k : Nat) : List Word → Except DecodeError (Operand × List Word)
  | [] => .error (.truncated k)
  | w :: rest =>
    match decodeOperand w with
    | some o => .ok (o, rest)
    | none => .error (.invalidOperand k w)

/-- The operand words of a row, in order, and the words after them (30_encoding.md R91). -/
def decodeRow : Row → List Word → Except DecodeError (Instr × List Word)
  | .f0 i, ws => .ok (i, ws)
  | .f1 mk, ws =>
    match operandAt 1 ws with
    | .error e => .error e
    | .ok (a, ws1) => .ok (mk a, ws1)
  | .f2 mk, ws =>
    match operandAt 1 ws with
    | .error e => .error e
    | .ok (a, ws1) =>
      match operandAt 2 ws1 with
      | .error e => .error e
      | .ok (b, ws2) => .ok (mk a b, ws2)
  | .f3 mk, ws =>
    match operandAt 1 ws with
    | .error e => .error e
    | .ok (a, ws1) =>
      match operandAt 2 ws1 with
      | .error e => .error e
      | .ok (b, ws2) =>
        match operandAt 3 ws2 with
        | .error e => .error e
        | .ok (c, ws3) => .ok (mk a b c, ws3)

/-- `decode` (30_encoding.md R91) of the words from an address on: the instruction and the words after it. -/
def decodeWords : List Word → Except DecodeError (Instr × List Word)
  | [] => .error (.truncated 0)
  | op :: ws =>
    match opcodeRow op.toNat with
    | none => .error (.invalidOpcode op)
    | some row => decodeRow row ws

/-- Decoding of image bytes: their words (20_memory.md R51), decoded. -/
def decodeBytes (bs : List Byte) : Except DecodeError (Instr × List Word) := decodeWords (wordsOfBytes bs)

/-! ### Encoding -/

/-- The opcode number (30_encoding.md R90). -/
def Instr.opcode : Instr → Nat
  | .halt => 0
  | .set _ _ => 1
  | .push _ => 2
  | .pop _ => 3
  | .eq _ _ _ => 4
  | .gt _ _ _ => 5
  | .jmp _ => 6
  | .jt _ _ => 7
  | .jf _ _ => 8
  | .add _ _ _ => 9
  | .mult _ _ _ => 10
  | .mod _ _ _ => 11
  | .and _ _ _ => 12
  | .or _ _ _ => 13
  | .not _ _ => 14
  | .rmem _ _ => 15
  | .wmem _ _ => 16
  | .call _ => 17
  | .ret => 18
  | .out _ => 19
  | .inp _ => 20
  | .noop => 21

/-- An operand's word: a literal v as v, a register i as 32768 + i (30_encoding.md R94). -/
def encodeOperand : Operand → Word
  | .lit v => v
  | .reg r => BitVec.ofNat 16 (Config.regBase + r.val)

/-- `encode`: the opcode word, then the operand words (30_encoding.md R94). -/
def encode (i : Instr) : List Word := BitVec.ofNat 16 i.opcode :: i.operands.map encodeOperand

/-! ### The opcode table's numbering -/

/-- The words of an instruction given as one number, bit 0 the least significant bit of the first word; every bit
from `nbits` on is 0. -/
def tableWords (nbits w : Nat) : List Word :=
  (List.range Config.maxInstrWords).map fun k => BitVec.ofNat 16 ((w % 2 ^ nbits) / 2 ^ (16 * k))

/-- What the decoder reads from the words `tableWords` lays out; none where it refuses. -/
def decodeTableWord (nbits w : Nat) : Option Instr :=
  match decodeWords (tableWords nbits w) with
  | .ok (i, _) => some i
  | .error _ => none

end Sys2Proof
end

