-- ==== Sys2Proof/Machine/State.lean ====
section
/-! DEFINITION. The state of the core and of the terminal attached to it, as plain data, and the state after reset
(10_state.md R20 to R36, 60_exceptions.md R330). -/

namespace Sys2Proof.Machine

/-- The causes of 60_exceptions.md R301, in the order of their codes 1..8 (`FaultCause.code`). -/
inductive FaultCause where
  /-- 1, at load: an image word outside 0..=32775. -/
  | invalidWord
  /-- 2, at load: an odd number of bytes, or more than 32768 words. -/
  | invalidImageSize
  /-- 3, at decode: an opcode word outside 0..=21. -/
  | invalidOpcode
  /-- 4, at decode: an operand word outside 0..=32775. -/
  | invalidOperand
  /-- 5, at execution: pop on an empty stack. -/
  | stackUnderflow
  /-- 6, at execution: mod with a divisor of 0. -/
  | modByZero
  /-- 7, at decode or execution: an address of 32768 or more. -/
  | memoryOutOfRange
  /-- 8, at execution: push or call on a full stack of limited size. -/
  | stackOverflow
  deriving DecidableEq, Repr

/-- The fault record (60_exceptions.md R302): the cause, the address of the instruction's opcode word, the address
of the offending word, and that word where there is one. -/
structure FaultRecord where
  cause : FaultCause
  pc : Word
  addr : Word
  word : Option Word
  deriving DecidableEq, Repr

/-- The run status (10_state.md R33). -/
inductive RunStatus where
  | running
  | halted
  | faulted (rec : FaultRecord)
  deriving DecidableEq, Repr

/-- Where the terminal's lines come from (60_exceptions.md R332). -/
inductive SourceKind where
  /-- A fixed queue of canned commands. -/
  | scripted
  /-- Live standard input. -/
  | live
  deriving DecidableEq, Repr

/-- The terminal's line source (60_exceptions.md R330 to R333): its kind, the lines not yet pulled, first to be
pulled first and without their newline, and whether no line can follow them (60_exceptions.md R333,
70_reset_and_hazards.md R370). -/
structure LineSource where
  kind : SourceKind
  lines : List (List Char)
  closed : Bool
  deriving DecidableEq, Repr

/-- The terminal's mode (60_exceptions.md R330, R334). -/
inductive TerminalMode where
  | normal
  /-- Interactive/debug: the host's debugger is at work until it resumes the loop. -/
  | debug
  deriving DecidableEq, Repr

/-- The terminal device (60_exceptions.md R330): the output accumulator, oldest word first; the rest of the current
input line; the line source; the mode; and the parameter `escapeMarker` (00_scope.md R6), fixed for the machine. -/
structure Terminal where
  outAccum : List Word
  inBuf : List Char
  source : LineSource
  mode : TerminalMode
  escapeMarker : List Char
  deriving DecidableEq, Repr

/-- Memory: (byte address, byte) pairs, addresses strictly rising, every unlisted byte reading as
`Config.unlistedByte`. Word n is the bytes 2n (low) and 2n + 1 (high): DESIGN CHOICE, log entry 1. -/
abbrev Memory := List Host.Cell

/-- The state (10_state.md R20, R34, R35), and the parameter `stackLimit` (10_state.md R29), fixed for the machine
(log entry 7). -/
structure State where
  /-- The instruction pointer (10_state.md R24). -/
  pc : Word
  /-- The registers x[0]..x[7] (10_state.md R21). -/
  regs : Vector Word Config.numRegs
  /-- The memory array (10_state.md R30). -/
  mem : Memory
  /-- The operand stack; the last element is the top (10_state.md R26). -/
  stack : List Word
  /-- The run status (10_state.md R33). -/
  status : RunStatus
  /-- The words emitted on the output port, in emission order (10_state.md R34). -/
  outTrace : List Word
  /-- The terminal (10_state.md R35). -/
  terminal : Terminal
  /-- The parameter `stackLimit` (10_state.md R29). -/
  stackLimit : Option Nat
  deriving DecidableEq, Repr

/-- Why a step gives no next state. A fault of the spec is not here: it is taken as a next state whose status is
`faulted` (60_exceptions.md R300, log entry 8). -/
inductive Fault where
  /-- Raised by `step` on a core that is `Halted`: no step exists from it (40_execution_loop.md R128). Safe: the
  hardware does not step either. -/
  | halted
  /-- Raised by `step` on a core that is `Faulted rec`: no step exists from it (40_execution_loop.md R128). Safe:
  the hardware does not step either. -/
  | faulted (rec : FaultRecord)
  deriving DecidableEq, Repr

/-- Why an instruction has no meaning. -/
inductive Refusal where
  /-- Raised by an arm of `exec` for an instruction not modelled yet; no arm does. Safe: nothing is claimed of such
  an instruction. -/
  | notModelled (mnemonic : String)
  deriving DecidableEq, Repr

/-- The terminal at reset (10_state.md R36, 60_exceptions.md R330): accumulator and buffer empty, mode normal.
DESIGN CHOICE (log entry 4): the line source, which the spec leaves to the host's configuration, is a scripted
queue with no line waiting, not closed. DESIGN CHOICE (log entry 6): the escape marker. -/
def Terminal.reset : Terminal where
  outAccum := []
  inBuf := []
  source := { kind := .scripted, lines := [], closed := false }
  mode := .normal
  escapeMarker := Config.escapeMarker

/-- The state after reset, before an image is loaded (10_state.md R36, 70_reset_and_hazards.md R350, R354): pc 0,
registers 0, memory all 0, stack and trace empty, status Running, and no stack limit (10_state.md R29). -/
def State.reset : State where
  pc := Config.resetPc
  regs := Vector.replicate Config.numRegs 0
  mem := []
  stack := []
  status := .running
  outTrace := []
  terminal := Terminal.reset
  stackLimit := Config.defaultStackLimit

end Sys2Proof.Machine
end

