-- ==== Sys2Proof/Machine/Ops.lean ====
section
/-! DEFINITION. The named operations every meaning is written with: memory, registers, the operand stack, the
pointer, taking a fault, and fetching an instruction. -/

namespace Sys2Proof.Machine

/-- What a step or a meaning answers. -/
abbrev Result := Host.Outcome State Fault Refusal

/-! ### Memory -/

/-- The byte listed at a byte address, or `Config.unlistedByte`. -/
def Memory.readByte : Memory → Nat → Byte
  | [], _ => Config.unlistedByte
  | (k, b) :: m, a => if k = a then b else Memory.readByte m a

/-- A listed byte at the head, unless it is what an unlisted byte reads as. -/
def Memory.consByte (a : Nat) (v : Byte) (m : Memory) : Memory :=
  if v = Config.unlistedByte then m else (a, v) :: m

/-- The byte at a byte address set, in canonical form. -/
def Memory.writeByte : Memory → Nat → Byte → Memory
  | [], a, v => Memory.consByte a v []
  | (k, b) :: m, a, v =>
    if a < k then Memory.consByte a v ((k, b) :: m)
    else if a = k then Memory.consByte a v m
    else (k, b) :: Memory.writeByte m a v

/-- The canonical form from a least byte address on: strictly rising, inside the 32768 words, no byte listed that
an unlisted address reads as. -/
def Memory.wfFrom : Nat → Memory → Bool
  | _, [] => true
  | lo, (k, b) :: m =>
    decide (lo ≤ k) && decide (k < 2 * Config.memWords) && decide (b ≠ Config.unlistedByte) && Memory.wfFrom (k + 1) m

/-- The canonical form of memory. -/
def Memory.wf (m : Memory) : Bool := Memory.wfFrom 0 m

/-- The word at a word address: bytes 2n (low) and 2n + 1 (high) (log entry 1). -/
def Memory.readWord (m : Memory) (n : Nat) : Word :=
  ofLoHi (Memory.readByte m (2 * n)) (Memory.readByte m (2 * n + 1))

/-- The word at a word address set; the value is not validated (20_memory.md R53). -/
def Memory.writeWord (m : Memory) (n : Nat) (v : Word) : Memory :=
  Memory.writeByte (Memory.writeByte m (2 * n) (loByte v)) (2 * n + 1) (hiByte v)

/-- Words placed at consecutive addresses from `n` on, as far as memory goes (70_reset_and_hazards.md R351, R353). -/
def Memory.writeWords : Memory → Nat → List Word → Memory
  | m, _, [] => m
  | m, n, w :: ws => if n < Config.memWords then Memory.writeWords (Memory.writeWord m n w) (n + 1) ws else m

/-- `instruction_window` (20_memory.md R60), of `count` words: the words from an address on, stopping before
address 32768. -/
def Memory.window (m : Memory) : Nat → Nat → List Word
  | _, 0 => []
  | n, count + 1 =>
    if n < Config.memWords then Memory.readWord m n :: Memory.window m (n + 1) count else []

/-! ### State updates -/

/-- `pc <- target`, unchecked (40_execution_loop.md R125). -/
def State.setPc (s : State) (target : Word) : State := { s with pc := target }

/-- The run status set (10_state.md R33). -/
def State.setStatus (s : State) (st : RunStatus) : State := { s with status := st }

/-- The memory array replaced. -/
def State.setMem (s : State) (m : Memory) : State := { s with mem := m }

/-- The operand stack replaced. -/
def State.setStack (s : State) (l : List Word) : State := { s with stack := l }

/-- The terminal replaced. -/
def State.setTerminal (s : State) (t : Terminal) : State := { s with terminal := t }

/-- The output trace replaced. -/
def State.setOutTrace (s : State) (l : List Word) : State := { s with outTrace := l }

/-- `x[r]` (00_scope.md R8); it cannot fail (10_state.md R22). -/
def State.reg (s : State) (r : Reg) : Word := s.regs[r.val]

/-- `x[r] <- v` (00_scope.md R8); the whole 16-bit word, unmasked (10_state.md R23). -/
def State.setReg (s : State) (r : Reg) (v : Word) : State := { s with regs := s.regs.set r.val v }

/-- The address `pc + k`; for a fetched instruction it never wraps (10_state.md R25, log entry 15). -/
def State.pcPlus (s : State) (k : Nat) : Word := s.pc + BitVec.ofNat 16 k

/-- `pc <- next`, next = pc + size (40_execution_loop.md R123, R124). -/
def State.advance (s : State) (size : Nat) : State := s.setPc (s.pcPlus size)

/-! ### Faults -/

/-- The cause code (60_exceptions.md R301). -/
def FaultCause.code : FaultCause → Nat
  | .invalidWord => 1
  | .invalidImageSize => 2
  | .invalidOpcode => 3
  | .invalidOperand => 4
  | .stackUnderflow => 5
  | .modByZero => 6
  | .memoryOutOfRange => 7
  | .stackOverflow => 8

/-- `raise Fault(cause, {pc, addr, word})` (60_exceptions.md R300, R302, R304): the state unchanged but for the
status, which holds the record; `pc` in the record is the pointer. There is no return from it (60_exceptions.md
R305). -/
def raise (cause : FaultCause) (addr : Word) (word : Option Word) (s : State) : Result :=
  .next (s.setStatus (.faulted { cause := cause, pc := s.pc, addr := addr, word := word }))

/-! ### Memory access -/

/-- `MemRead(addr, 1)` (20_memory.md R52); none is an address of 32768 or more. -/
def memRead (s : State) (addr : Word) : Option Word :=
  if addr.toNat < Config.memWords then some (Memory.readWord s.mem addr.toNat) else none

/-- `MemWrite(addr, 1, v)` (20_memory.md R53); none is an address of 32768 or more. -/
def memWrite (s : State) (addr : Word) (v : Word) : Option State :=
  if addr.toNat < Config.memWords then some (s.setMem (Memory.writeWord s.mem addr.toNat v)) else none

/-! ### The operand stack -/

/-- `stackLimit = some n and len(stack) = n` (10_state.md R27). -/
def State.stackFull (s : State) : Bool :=
  match s.stackLimit with
  | none => false
  | some n => decide (s.stack.length = n)

/-- The effect of `Push(v)` on a stack that is not full (10_state.md R27). -/
def State.pushed (s : State) (v : Word) : State := s.setStack (s.stack ++ [v])

/-- `Push(v)` and then `pc <- target`; on a full stack the fault of 10_state.md R27, with the opcode as the
offending word (60_exceptions.md R302). Shared by push and call. -/
def pushThenGo (opcode : Word) (v target : Word) (s : State) : Result :=
  if s.stackFull then raise .stackOverflow s.pc (some opcode) s
  else .next ((s.pushed v).setPc target)

/-- `Pop()` (10_state.md R28): the top and the state without it; none is the empty stack, whose outcome the caller
decides. -/
def State.popped (s : State) : Option (Word × State) :=
  match s.stack.getLast? with
  | none => none
  | some v => some (v, s.setStack s.stack.dropLast)

/-! ### Fetch -/

/-- Fetch and decode at the pointer (40_execution_loop.md R121). The window reads up to four words; a read has no
side effect (20_memory.md R55), so reading a word the instruction does not have shows nowhere. -/
def fetch (s : State) : Except DecodeError Instr :=
  match decodeWords (Memory.window s.mem s.pc.toNat Config.maxInstrWords) with
  | .ok (i, _) => .ok i
  | .error e => .error e

/-- The fault a refused decode raises (30_encoding.md R91, 60_exceptions.md R302). A word the window lacks is one at
address 32768 or more. -/
def decodeFault (e : DecodeError) (s : State) : Result :=
  match e with
  | .truncated k => raise .memoryOutOfRange (s.pcPlus k) none s
  | .invalidOpcode w => raise .invalidOpcode s.pc (some w) s
  | .invalidOperand k w => raise .invalidOperand (s.pcPlus k) (some w) s

end Sys2Proof.Machine
end

