-- ==== Sys2Proof/Machine/Operands.lean ====
section
/-! DEFINITION. The operand forms: reading an operand, writing through a destination, and the shapes of
instruction that several meanings share. -/

namespace Sys2Proof.Machine

/-- `resolve(op)` (30_encoding.md R86): a literal's value, or the full 16-bit content of the register. -/
def resolve (s : State) : Operand → Word
  | .lit v => v
  | .reg r => s.reg r

/-- `assign(op, v)` (30_encoding.md R87, R88): the register written, unmasked; nothing where the destination is a
literal. -/
def assign (s : State) (op : Operand) (v : Word) : State :=
  match op with
  | .lit _ => s
  | .reg r => s.setReg r v

/-- `assign(a, v); pc <- next`: the end of every instruction with a destination. -/
def assignThenNext (a : Operand) (v : Word) (size : Nat) (s : State) : Result :=
  .next ((assign s a v).advance size)

end Sys2Proof.Machine
end

