-- ==== Sys2Proof/Machine/ArithLogic.lean ====
section
/-! DEFINITION. add, mult, mod, and, or and not (45_arith_logic.md). The exact natural number is computed first and
then reduced (45_arith_logic.md R209). -/

namespace Sys2Proof.Machine

/-- (x + y) mod 32768 of the exact sum (45_arith_logic.md R210). -/
def addWord (x y : Word) : Word := BitVec.ofNat 16 ((x.toNat + y.toNat) % Config.arithModulus)

/-- (x * y) mod 32768 of the exact product (45_arith_logic.md R211). -/
def multWord (x y : Word) : Word := BitVec.ofNat 16 ((x.toNat * y.toNat) % Config.arithModulus)

/-- The unsigned remainder of the full 16-bit values (45_arith_logic.md R212); the divisor is not 0. -/
def modWord (x y : Word) : Word := BitVec.ofNat 16 (x.toNat % y.toNat)

/-- The complement, masked to 15 bits (45_arith_logic.md R215). -/
def notWord (x : Word) : Word := ~~~x &&& Config.notMask

/-- `add` (45_arith_logic.md R210). -/
def execAdd (a b c : Operand) (s : State) : Result := assignThenNext a (addWord (resolve s b) (resolve s c)) 4 s

/-- `mult` (45_arith_logic.md R211). -/
def execMult (a b c : Operand) (s : State) : Result := assignThenNext a (multWord (resolve s b) (resolve s c)) 4 s

/-- `mod` (45_arith_logic.md R212): `ModByZero` on a divisor of 0. -/
def execMod (a b c : Operand) (s : State) : Result :=
  if resolve s c = 0 then raise .modByZero s.pc (some 11) s
  else assignThenNext a (modWord (resolve s b) (resolve s c)) 4 s

/-- `and` (45_arith_logic.md R213): all 16 bits, unmasked. -/
def execAnd (a b c : Operand) (s : State) : Result := assignThenNext a (resolve s b &&& resolve s c) 4 s

/-- `or` (45_arith_logic.md R214): all 16 bits, unmasked. -/
def execOr (a b c : Operand) (s : State) : Result := assignThenNext a (resolve s b ||| resolve s c) 4 s

/-- `not` (45_arith_logic.md R215). -/
def execNot (a b : Operand) (s : State) : Result := assignThenNext a (notWord (resolve s b)) 3 s

end Sys2Proof.Machine
end

