-- ==== Sys2Proof/Machine/Terminal.lean ====
section
/-! DEFINITION. The terminal's two operations (60_exceptions.md R330 to R335) and the core's ports to it
(47_io.md R250, R251). -/

namespace Sys2Proof.Machine

/-- `charCode` (00_scope.md R6, D13): the spec's default for characters 0..=127, the ASCII code; beyond them the
open parameter (log entry 5). -/
def charCode (c : Char) : Word :=
  if c.toNat ≤ 127 then BitVec.ofNat 16 c.toNat else Config.charCodeBeyondAscii c

/-- A line as it is delivered, the newline included (60_exceptions.md R332, 47_io.md R252; log entry 12 for live
input). -/
def lineText (line : List Char) : List Char := line ++ ['\n']

/-- Does the line begin with the escape marker (60_exceptions.md R334)? -/
def Terminal.isEscapeLine (t : Terminal) (line : List Char) : Bool := t.escapeMarker.isPrefixOf (lineText line)

/-- The terminal with the first waiting line taken from its source (60_exceptions.md R331). -/
def Terminal.dropLine (t : Terminal) : Terminal :=
  { t with source := { t.source with lines := t.source.lines.tail } }

/-- The first character of the buffer, popped; none if the buffer is empty (60_exceptions.md R331). -/
def Terminal.popChar (t : Terminal) : Option Char × Terminal :=
  match t.inBuf with
  | c :: rest => (some c, { t with inBuf := rest })
  | [] => (none, t)

/-- A line pulled from the source into the empty buffer, and its first character returned (60_exceptions.md R331);
an escape line delivers nothing and switches the mode (R334). -/
def Terminal.takeLine (t : Terminal) (line : List Char) : Option Char × Terminal :=
  if t.isEscapeLine line then (none, { t.dropLine with mode := .debug })
  else Terminal.popChar { t.dropLine with inBuf := lineText line }

/-- `read() -> Option<char>` (60_exceptions.md R331, R333, R334). In debug mode no line is pulled: the loop waits
for the host to resume it (DEDUCED, log entry 11). -/
def Terminal.read (t : Terminal) : Option Char × Terminal :=
  match t.inBuf, t.mode, t.source.lines with
  | _ :: _, _, _ => t.popChar
  | [], .debug, _ => (none, t)
  | [], .normal, [] => (none, t)
  | [], .normal, line :: _ => t.takeLine line

/-- `write(char)` (60_exceptions.md R335): appended to the accumulator. Echo has no effect on the core. -/
def Terminal.write (t : Terminal) (v : Word) : Terminal := { t with outAccum := t.outAccum ++ [v] }

/-- `OutWrite(v)` (47_io.md R250): appended to `outTrace` and handed to the terminal. -/
def outWrite (s : State) (v : Word) : State :=
  (s.setOutTrace (s.outTrace ++ [v])).setTerminal (s.terminal.write v)

/-- `InRead()` (47_io.md R251): the code of the terminal's next character, or none; the answer is drawn from the
terminal held in the state (log entry 3). -/
def inRead (s : State) : Option Word × State :=
  (s.terminal.read.1.map charCode, s.setTerminal s.terminal.read.2)

end Sys2Proof.Machine
end

