-- ==== Sys2Proof/Machine/CharIO.lean ====
section
/-! DEFINITION. out and in (47_io.md). -/

namespace Sys2Proof.Machine

/-- `out` (47_io.md R250): the word is passed on unchecked; the port never blocks. -/
def execOut (a : Operand) (s : State) : Result := .next ((outWrite s (resolve s a)).advance 2)

/-- `in` for an answer of the input port (47_io.md R252): with none the core does not change and the same `in` is
retried (40_execution_loop.md R126). -/
def inWithAnswer (a : Operand) (answer : Option Word) (s : State) : Result :=
  match answer with
  | none => .next s
  | some w => assignThenNext a w 2 s

/-- `in` (47_io.md R252), its answer drawn from the terminal (47_io.md R251). -/
def execIn (a : Operand) (s : State) : Result := inWithAnswer a (inRead s).1 (inRead s).2

end Sys2Proof.Machine
end

