-- ==== Sys2Proof/Machine/Flags.lean ====
section
/-! DEFINITION. The core has no flags (10_state.md R31). In their place stand the words a comparison writes
(43_compare.md) and the test a conditional branch makes on an operand's value (44_control_transfer.md). -/

namespace Sys2Proof.Machine

/-- What a comparison writes: exactly 1 or 0 (43_compare.md R180, R181). -/
def truthWord (b : Bool) : Word := if b then 1 else 0

/-- `eq`: the full 16-bit words are the same (43_compare.md R180). -/
def eqWord (x y : Word) : Word := truthWord (decide (x = y))

/-- `gt`: unsigned, on the full 16-bit words (43_compare.md R181). -/
def gtWord (x y : Word) : Word := truthWord (decide (y.toNat < x.toNat))

/-- The condition of `jt`: any value but 0 (44_control_transfer.md R191); `jf` takes its negation (R192). -/
def isNonZero (x : Word) : Bool := decide (x ≠ 0)

end Sys2Proof.Machine
end

