-- ==== Sys2Proof/Machine/Compare.lean ====
section
/-! DEFINITION. eq and gt (43_compare.md). -/

namespace Sys2Proof.Machine

/-- `eq` (43_compare.md R180). -/
def execEq (a b c : Operand) (s : State) : Result := assignThenNext a (eqWord (resolve s b) (resolve s c)) 4 s

/-- `gt` (43_compare.md R181). -/
def execGt (a b c : Operand) (s : State) : Result := assignThenNext a (gtWord (resolve s b) (resolve s c)) 4 s

end Sys2Proof.Machine
end

