-- ==== Sys2Proof/Machine/ControlTransfer.lean ====
section
/-! DEFINITION. jmp, jt, jf, call and ret (44_control_transfer.md). Targets are not checked (40_execution_loop.md
R125). -/

namespace Sys2Proof.Machine

/-- `jmp` (44_control_transfer.md R190). -/
def execJmp (a : Operand) (s : State) : Result := .next (s.setPc (resolve s a))

/-- The end of a conditional branch of 3 words: the target if taken, else `next`. -/
def branchIf (taken : Bool) (target : Word) (s : State) : Result :=
  .next (if taken then s.setPc target else s.advance 3)

/-- `jt` (44_control_transfer.md R191). -/
def execJt (a b : Operand) (s : State) : Result := branchIf (isNonZero (resolve s a)) (resolve s b) s

/-- `jf` (44_control_transfer.md R192). -/
def execJf (a b : Operand) (s : State) : Result := branchIf (!isNonZero (resolve s a)) (resolve s b) s

/-- `call` (44_control_transfer.md R193): the pushed return address is pc + 2. -/
def execCall (a : Operand) (s : State) : Result := pushThenGo 17 (s.pcPlus 2) (resolve s a) s

/-- `ret` (44_control_transfer.md R194): on an empty stack a clean halt, the pointer unchanged. -/
def execRet (s : State) : Result :=
  match s.popped with
  | none => .next (s.setStatus .halted)
  | some (v, s') => .next (s'.setPc v)

end Sys2Proof.Machine
end

