-- ==== Sys2Proof/Machine/MemoryAccess.lean ====
section
/-! DEFINITION. rmem and wmem (46_memory_access.md). The effective address is the value of an operand. -/

namespace Sys2Proof.Machine

/-- `rmem` (46_memory_access.md R240): the read happens, and can fault, with a literal destination too. -/
def execRmem (a b : Operand) (s : State) : Result :=
  match memRead s (resolve s b) with
  | none => raise .memoryOutOfRange (resolve s b) none s
  | some v => assignThenNext a v 3 s

/-- `wmem` (46_memory_access.md R241). -/
def execWmem (a b : Operand) (s : State) : Result :=
  match memWrite s (resolve s a) (resolve s b) with
  | none => raise .memoryOutOfRange (resolve s a) none s
  | some s' => .next (s'.advance 3)

end Sys2Proof.Machine
end

