-- ==== Sys2Proof/Machine/MoveStack.lean ====
section
/-! DEFINITION. set, push and pop (42_move_stack.md). -/

namespace Sys2Proof.Machine

/-- `set` (42_move_stack.md R160). -/
def execSet (a b : Operand) (s : State) : Result := assignThenNext a (resolve s b) 3 s

/-- `push` (42_move_stack.md R161). -/
def execPush (a : Operand) (s : State) : Result := pushThenGo 2 (resolve s a) (s.pcPlus 2) s

/-- `pop` (42_move_stack.md R162): `StackUnderflow` on an empty stack. -/
def execPop (a : Operand) (s : State) : Result :=
  match s.popped with
  | none => raise .stackUnderflow s.pc (some 3) s
  | some (v, s') => assignThenNext a v 2 s'

end Sys2Proof.Machine
end

