-- ==== Sys2Proof/Machine/System.lean ====
section
/-! DEFINITION. halt and noop (41_system.md). -/

namespace Sys2Proof.Machine

/-- `halt` (41_system.md R150): status Halted, the pointer unchanged. -/
def execHalt (s : State) : Result := .next (s.setStatus .halted)

/-- `noop` (41_system.md R151). -/
def execNoop (s : State) : Result := .next (s.advance 1)

end Sys2Proof.Machine
end

