-- ==== Sys2Proof/Machine/Step.lean ====
section
/-! DEFINITION. One step of the loop (40_execution_loop.md R120 to R123). -/

namespace Sys2Proof.Machine

/-- A step exists only while the status is Running (40_execution_loop.md R120, R128). It decodes the instruction at
the pointer and executes it, or takes the fault of the decode (R121). -/
def step (s : State) : Host.Outcome State Fault Refusal :=
  match s.status with
  | .running =>
    match fetch s with
    | .ok i => exec i s
    | .error e => decodeFault e s
  | .halted => .fault .halted
  | .faulted r => .fault (.faulted r)

/-- The state with an instruction, given as one number, placed in memory at the pointer, and Running, so that the
next step fetches it (log entry 16). Words that would stand at address 32768 or more are not placed. -/
def State.withFetchWord (s : State) (nbits w : Nat) : State :=
  (s.setMem (Memory.writeWords s.mem s.pc.toNat (tableWords nbits w))).setStatus .running

end Sys2Proof.Machine
end

