-- ==== Sys2Proof/Machine/Debugger.lean ====
section
/-! DEFINITION. The debugger's commands and what each requests of the core (60_exceptions.md R340). The debugger
changes nothing itself: Machine/HostInterface.lean applies what it requests, between two instructions. -/

namespace Sys2Proof.Machine

/-- A command line as the debugger reads it (60_exceptions.md R340). -/
inductive DebugCommand where
  | view (n : Word)
  | regs
  | stack
  | print (addr : Word)
  | show (addr n : Word)
  | verbose (on : Bool)
  | setr (reg val : Word)
  | setm (addr val : Word)
  | quit
  /-- A command whose arguments are missing or invalid: ignored. -/
  | ignored
  /-- An unrecognized command: a help summary is printed. -/
  | help
  deriving DecidableEq, Repr

/-- What the debugger hands back to the embedding loop (60_exceptions.md R340, R341). -/
inductive DebugRequest where
  | nothing
  | breakpoint (addr : Word)
  | setReg (r : Reg) (v : Word)
  | setMem (addr v : Word)
  | verbosity (on : Bool)
  | quit
  deriving DecidableEq, Repr

/-- The characters of a line up to each space. -/
def splitAtSpaces : List Char → List (List Char)
  | [] => [[]]
  | c :: cs =>
    if c = ' ' then [] :: splitAtSpaces cs
    else match splitAtSpaces cs with
      | [] => [[c]]
      | t :: ts => (c :: t) :: ts

/-- The space-separated tokens of a line (60_exceptions.md R340). -/
def tokens (line : List Char) : List (List Char) := (splitAtSpaces line).filter fun t => !t.isEmpty

/-- A decimal number, all of whose characters are digits. -/
def decimalValue : Nat → List Char → Option Nat
  | acc, [] => some acc
  | acc, c :: cs => if c.isDigit then decimalValue (10 * acc + (c.toNat - 48)) cs else none

/-- An unsigned 16-bit decimal (60_exceptions.md R340); none is an invalid argument (log entry 19). -/
def parseWord (t : List Char) : Option Word :=
  if t.isEmpty then none
  else match decimalValue 0 t with
    | some n => if n ≤ 65535 then some (BitVec.ofNat 16 n) else none
    | none => none

/-- A command of one numeric argument. -/
def withOne (args : List (List Char)) (mk : Word → DebugCommand) : DebugCommand :=
  match args with
  | a :: _ =>
    match parseWord a with
    | some x => mk x
    | none => .ignored
  | [] => .ignored

/-- A command of two numeric arguments. -/
def withTwo (args : List (List Char)) (mk : Word → Word → DebugCommand) : DebugCommand :=
  match args with
  | a :: b :: _ =>
    match parseWord a, parseWord b with
    | some x, some y => mk x y
    | _, _ => .ignored
  | _ => .ignored

/-- `verbose on` and `verbose off`. -/
def verboseArg (args : List (List Char)) : DebugCommand :=
  match args with
  | a :: _ =>
    if a = ['o', 'n'] then .verbose true
    else if a = ['o', 'f', 'f'] then .verbose false
    else .ignored
  | [] => .ignored

/-- The command of a line (60_exceptions.md R340); tokens after the arguments are not read (log entry 19). -/
def parseCommand (line : List Char) : DebugCommand :=
  match tokens line with
  | [] => .help
  | name :: args =>
    if name = ['v', 'i', 'e', 'w'] then withOne args .view
    else if name = ['r', 'e', 'g', 's'] then .regs
    else if name = ['s', 't', 'a', 'c', 'k'] then .stack
    else if name = ['p', 'r', 'i', 'n', 't'] then withOne args .print
    else if name = ['s', 'h', 'o', 'w'] then withTwo args .show
    else if name = ['v', 'e', 'r', 'b', 'o', 's', 'e'] then verboseArg args
    else if name = ['s', 'e', 't', 'r'] then withTwo args .setr
    else if name = ['s', 'e', 't', 'm'] then withTwo args .setm
    else if name = ['q', 'u', 'i', 't'] ∨ name = ['q'] then .quit
    else .help

/-- What a command requests (60_exceptions.md R340): `setr` with reg > 7 and `setm` with addr >= 32768 are invalid
and ignored (D19); the commands that only print request nothing. -/
def debugRequest : DebugCommand → DebugRequest
  | .setr reg val => if h : reg.toNat < Config.numRegs then .setReg ⟨reg.toNat, h⟩ val else .nothing
  | .setm addr val => if addr.toNat < Config.memWords then .setMem addr val else .nothing
  | .verbose on => .verbosity on
  | .quit => .quit
  | .view _ | .regs | .stack | .print _ | .show _ _ | .ignored | .help => .nothing

end Sys2Proof.Machine
end

