-- ==== Sys2Proof/Machine/HostInterface.lean ====
section
/-! DEFINITION. The interface the core presents to the host (60_exceptions.md R342): reset and load, save and
restore, what the host may do between two instructions, and the end of a run. None of it is part of `step`: the host
acts only at an instruction boundary (20_memory.md R59). -/

namespace Sys2Proof.Machine

/-! ### Reset and load -/

/-- A load error (70_reset_and_hazards.md R352): the cause, and the index and word of the first bad word, absent for
`InvalidImageSize`. -/
structure LoadError where
  cause : FaultCause
  index : Option Nat
  word : Option Word
  deriving DecidableEq, Repr

/-- The first word above 32775, with its index (70_reset_and_hazards.md R352). -/
def firstIllegal : Nat → List Word → Option (Nat × Word)
  | _, [] => none
  | k, w :: ws => if w.toNat ≤ Config.maxLegalWord then firstIllegal (k + 1) ws else some (k, w)

/-- An even number of bytes, at most 32768 words (70_reset_and_hazards.md R352, D3). -/
def imageSizeOk (bytes : List Byte) : Bool :=
  decide (bytes.length % 2 = 0) && decide (bytes.length ≤ 2 * Config.memWords)

/-- Reset and load (70_reset_and_hazards.md R350 to R354): the image at address 0, zeros after it, pc 0, Running.
DESIGN CHOICE (log entry 10): the size is checked before the words. -/
def loadImage (bytes : List Byte) : Except LoadError State :=
  if imageSizeOk bytes then
    match firstIllegal 0 (wordsOfBytes bytes) with
    | none => .ok (State.reset.setMem (Memory.writeWords State.reset.mem 0 (wordsOfBytes bytes)))
    | some (k, w) => .error { cause := .invalidWord, index := some k, word := some w }
  else .error { cause := .invalidImageSize, index := none, word := none }

/-! ### Save and restore -/

/-- A saved state (20_memory.md R62). -/
structure Saved where
  pc : Word
  regs : Vector Word Config.numRegs
  mem : Memory
  stack : List Word
  deriving DecidableEq, Repr

/-- Save, at an instruction boundary (20_memory.md R62). -/
def save (s : State) : Saved := { pc := s.pc, regs := s.regs, mem := s.mem, stack := s.stack }

/-- Restore (20_memory.md R62): the four parts replaced and the status Running, whatever it was. The trace and the
terminal, which the saved tuple does not name, stay (DEDUCED, log entry 13). -/
def restore (v : Saved) (s : State) : State :=
  { s with pc := v.pc, regs := v.regs, mem := v.mem, stack := v.stack, status := .running }

/-! ### What the host may do between two instructions -/

/-- The host's own context (60_exceptions.md R341), no state of the core. -/
structure HostContext where
  verbose : Bool
  breakpoint : Option Word
  stepCount : Nat
  deriving DecidableEq, Repr

/-- One act of the host (60_exceptions.md R342, R333, R340). -/
inductive HostEvent where
  /-- A line for the terminal's source, without its newline. -/
  | inputLine (line : List Char)
  /-- The source switched to scripted or live lines. -/
  | setSource (kind : SourceKind) (lines : List (List Char))
  /-- No line follows those waiting. -/
  | closeSource
  | drainOutput
  | stop
  | resume
  /-- What the debugger requested of a command. -/
  | debug (r : DebugRequest)
  /-- A write of the patch collaborator. -/
  | patch (addr v : Word)
  | restore (v : Saved)
  deriving DecidableEq, Repr

/-- The terminal's source replaced. -/
def Terminal.setSource (t : Terminal) (src : LineSource) : Terminal := { t with source := src }

/-- The terminal's mode replaced. -/
def Terminal.setMode (t : Terminal) (m : TerminalMode) : Terminal := { t with mode := m }

/-- The accumulator emptied (60_exceptions.md R335). -/
def Terminal.drained (t : Terminal) : Terminal := { t with outAccum := [] }

/-- Drain the output: the accumulator emptied, the core untouched (60_exceptions.md R335). -/
def drainOutput (s : State) : State := s.setTerminal s.terminal.drained

/-- Only while Running (60_exceptions.md R342; 40_execution_loop.md R128). -/
def whileRunning (s t : State) : Option State := if s.status = .running then some t else none

/-- A host write to memory; an address of 32768 or more names no cell. -/
def hostWrite (addr v : Word) (s : State) : Option State :=
  match memWrite s addr v with
  | some t => whileRunning s t
  | none => none

/-- What a debugger request does to the state (60_exceptions.md R340, R341). -/
def applyRequest (r : DebugRequest) (s : State) : Option State :=
  match r with
  | .nothing | .breakpoint _ | .verbosity _ => some s
  | .setReg r v => whileRunning s (s.setReg r v)
  | .setMem a v => hostWrite a v s
  | .quit => some (s.setTerminal (s.terminal.setMode .normal))

/-- What a debugger request does to the host's context (60_exceptions.md R341). -/
def requestContext (r : DebugRequest) (c : HostContext) : HostContext :=
  match r with
  | .breakpoint a => { c with breakpoint := some a }
  | .verbosity on => { c with verbose := on }
  | .nothing | .setReg _ _ | .setMem _ _ | .quit => c

/-- An act of the host on the state (60_exceptions.md R342); none where the host may not act so (log entry 21). A stop and a resume
change nothing (40_execution_loop.md R130, D29). -/
def hostEvent (e : HostEvent) (s : State) : Option State :=
  match e with
  | .inputLine line =>
    some (s.setTerminal (s.terminal.setSource { s.terminal.source with lines := s.terminal.source.lines ++ [line] }))
  | .setSource kind lines => some (s.setTerminal (s.terminal.setSource { kind := kind, lines := lines, closed := false }))
  | .closeSource => some (s.setTerminal (s.terminal.setSource { s.terminal.source with closed := true }))
  | .drainOutput => some (drainOutput s)
  | .stop => some s
  | .resume => whileRunning s s
  | .debug r => applyRequest r s
  | .patch a v => hostWrite a v s
  | .restore v => some (restore v s)

/-! ### The end of a run -/

/-- How a run ended (70_reset_and_hazards.md R370). -/
inductive RunEnd where
  | halted
  | faulted (rec : FaultRecord)
  | inputExhausted
  | stopped
  deriving DecidableEq, Repr

/-- The core is at an `in` that finds no character (40_execution_loop.md R126). -/
def awaitsInput (s : State) : Bool :=
  match fetch s with
  | .ok (.inp _) => s.terminal.read.1.isNone
  | _ => false

/-- Suspended at an `in` with the source closed and empty (70_reset_and_hazards.md R370 (c), D25). -/
def inputExhausted (s : State) : Bool :=
  awaitsInput s && s.terminal.source.closed && s.terminal.source.lines.isEmpty && s.terminal.inBuf.isEmpty

/-- The outcome the state itself shows, if any (70_reset_and_hazards.md R370). DESIGN CHOICE (log entry 20): it comes
before a stop by the host where the two coincide. -/
def endOf (s : State) : Option RunEnd :=
  match s.status with
  | .halted => some .halted
  | .faulted r => some (.faulted r)
  | .running => if inputExhausted s then some .inputExhausted else none

/-- The host stops at the boundary before the instruction at the breakpoint (60_exceptions.md R341, D26), and while
the terminal is in debug mode (R334; log entry 20). -/
def hostStopsAt (c : HostContext) (s : State) : Bool :=
  decide (c.breakpoint = some s.pc) || decide (s.terminal.mode = .debug)

/-- The loop under a step counter of `fuel` (40_execution_loop.md R130): the outcome, and the context and state it
leaves. Running out of fuel is a stop by the host (70_reset_and_hazards.md R370 (d)). -/
def runLoop : Nat → HostContext → State → RunEnd × HostContext × State
  | 0, c, s => ((endOf s).getD .stopped, c, s)
  | fuel + 1, c, s =>
    match endOf s with
    | some e => (e, c, s)
    | none =>
      if hostStopsAt c s then (.stopped, c, s)
      else
        match step s with
        | .next t => runLoop fuel { c with stepCount := c.stepCount + 1 } t
        | .fault _ | .refused _ => (.stopped, c, s)

end Sys2Proof.Machine
end

