-- ==== Sys2Proof/Safety.lean ====
section
/-! DEFINITION. The terms statements are made in: what a safe and a clean state is, the invariant every step keeps,
what an instruction's effect and its frame are, the tables of the spec, and the reference decoder of
30_encoding.md R91, word by word. -/

namespace Sys2Proof.Safety

open Sys2Proof.Machine

/-! ### Safe and clean -/

/-- No fault has been taken (60_exceptions.md R300). -/
def Safe (s : State) : Prop := ∀ r, s.status ≠ .faulted r

/-- The clean end of a program (70_reset_and_hazards.md R370: only `Halted` is one). -/
def CleanEnd (s : State) : Prop := s.status = .halted

/-- The stack is within its limit (10_state.md R27). -/
def stackWithinLimit (s : State) : Bool :=
  match s.stackLimit with
  | none => true
  | some n => decide (s.stack.length ≤ n)

/-- The invariant of the machine: memory in its canonical form, inside the 32768 words, and the stack within its
limit. -/
def Invariant (s : State) : Prop := Memory.wf s.mem = true ∧ stackWithinLimit s = true

/-! ### Effects and frames -/

/-- Every register as before. -/
def SameRegs (s t : State) : Prop := ∀ r : Reg, t.reg r = s.reg r

/-- All of memory as before, byte by byte. -/
def SameMem (s t : State) : Prop := ∀ k : Nat, Memory.readByte t.mem k = Memory.readByte s.mem k

/-- Status, trace, terminal and parameter as before. -/
def SameRest (s t : State) : Prop :=
  t.status = s.status ∧ t.outTrace = s.outTrace ∧ t.terminal = s.terminal ∧ t.stackLimit = s.stackLimit

/-- The destination register, where `a` is one, holds the number `n`; every other register is as before; and where
`a` is a literal every register is (30_encoding.md R87). -/
def Assigns (a : Operand) (n : Nat) (s t : State) : Prop :=
  ∀ r : Reg, (t.reg r).toNat = if a = .reg r then n else (s.reg r).toNat

/-- The pointer moved on by the instruction's size (40_execution_loop.md R124). -/
def Advances (size : Nat) (s t : State) : Prop := t.pc = s.pc + BitVec.ofNat 16 size

/-- The whole effect of an instruction that only writes the number `n` through its destination `a` and advances. -/
def OnlyAssigns (a : Operand) (n size : Nat) (s t : State) : Prop :=
  Assigns a n s t ∧ Advances size s t ∧ SameMem s t ∧ t.stack = s.stack ∧ SameRest s t

/-- The state after a fault of the instruction at the pointer (60_exceptions.md R302, R304). -/
def faultedState (s : State) (cause : FaultCause) (addr : Word) (word : Option Word) : State :=
  { s with status := .faulted { cause := cause, pc := s.pc, addr := addr, word := word } }

/-- The word address an instruction stores to, with the expression its meaning uses; none for an instruction that
stores nothing, and for a `wmem` outside memory (46_memory_access.md R241). -/
def storeAddress (i : Instr) (s : State) : Option Nat :=
  match i with
  | .wmem a _ => if (resolve s a).toNat < Config.memWords then some (resolve s a).toNat else none
  | .halt | .set _ _ | .push _ | .pop _ | .eq _ _ _ | .gt _ _ _ | .jmp _ | .jt _ _ | .jf _ _ | .add _ _ _
  | .mult _ _ _ | .mod _ _ _ | .and _ _ _ | .or _ _ _ | .not _ _ | .rmem _ _ | .call _ | .ret | .out _ | .inp _
  | .noop => none

/-- The execute-time fault conditions of 60_exceptions.md R301. -/
def ExecuteFaults (i : Instr) (s : State) : Prop :=
  match i with
  | .pop _ => s.stack = []
  | .mod _ _ c => resolve s c = 0
  | .rmem _ b => 32768 ≤ (resolve s b).toNat
  | .wmem a _ => 32768 ≤ (resolve s a).toNat
  | .push _ | .call _ => s.stackLimit = some s.stack.length
  | .halt | .set _ _ | .eq _ _ _ | .gt _ _ _ | .jmp _ | .jt _ _ | .jf _ _ | .add _ _ _ | .mult _ _ _ | .and _ _ _
  | .or _ _ _ | .not _ _ | .ret | .out _ | .inp _ | .noop => False

/-- The pointer after an instruction that raises no fault: the table of 40_execution_loop.md R124. -/
def pcTable (i : Instr) (s : State) : Word :=
  match i with
  | .set _ _ | .not _ _ | .rmem _ _ | .wmem _ _ => s.pc + 3
  | .push _ | .pop _ | .out _ => s.pc + 2
  | .eq _ _ _ | .gt _ _ _ | .add _ _ _ | .mult _ _ _ | .mod _ _ _ | .and _ _ _ | .or _ _ _ => s.pc + 4
  | .noop => s.pc + 1
  | .inp _ => if s.terminal.read.1.isSome then s.pc + 2 else s.pc
  | .jmp a | .call a => resolve s a
  | .jt a b => if resolve s a ≠ 0 then resolve s b else s.pc + 3
  | .jf a b => if resolve s a = 0 then resolve s b else s.pc + 3
  | .ret => s.stack.getLast?.getD s.pc
  | .halt => s.pc

/-! ### Runs in which a word of memory is not stored to -/

/-- The act of the host may write the word at an address: a patch or the debugger's `setm` of that address, and a
restore, which replaces all of memory (20_memory.md R59, R62). -/
def hostMayStore (e : HostEvent) (n : Nat) : Prop :=
  match e with
  | .patch addr _ => addr.toNat = n
  | .debug (.setMem addr _) => addr.toNat = n
  | .restore _ => True
  | .debug .nothing | .debug (.breakpoint _) | .debug (.setReg _ _) | .debug (.verbosity _) | .debug .quit => False
  | .inputLine _ | .setSource _ _ | .closeSource | .drainOutput | .stop | .resume => False

/-- The state `t` is reached from `s` by steps and acts of the host, in any number and any order, none of which stores
to the word at address `n`. -/
inductive ReachesWithoutStore (n : Nat) : State → State → Prop where
  | refl (s : State) : ReachesWithoutStore n s s
  | step {s t u : State} : ReachesWithoutStore n s t → step t = .next u →
      (∀ i, fetch t = .ok i → storeAddress i t ≠ some n) → ReachesWithoutStore n s u
  | host {s t u : State} (e : HostEvent) : ReachesWithoutStore n s t → hostEvent e t = some u →
      ¬ hostMayStore e n → ReachesWithoutStore n s u

/-! ### The decoder of 30_encoding.md R91, word by word -/

/-- `operandCount(op)` (30_encoding.md R81, R90). -/
def operandCount (op : Nat) : Nat :=
  if op ∈ [0, 18, 21] then 0
  else if op ∈ [2, 3, 6, 17, 19, 20] then 1
  else if op ∈ [1, 7, 8, 14, 15, 16] then 2
  else 3

/-- The instruction of an opcode and its operands (30_encoding.md R90). -/
def instruction : Nat → List Operand → Option Instr
  | 0, [] => some .halt
  | 1, [a, b] => some (.set a b)
  | 2, [a] => some (.push a)
  | 3, [a] => some (.pop a)
  | 4, [a, b, c] => some (.eq a b c)
  | 5, [a, b, c] => some (.gt a b c)
  | 6, [a] => some (.jmp a)
  | 7, [a, b] => some (.jt a b)
  | 8, [a, b] => some (.jf a b)
  | 9, [a, b, c] => some (.add a b c)
  | 10, [a, b, c] => some (.mult a b c)
  | 11, [a, b, c] => some (.mod a b c)
  | 12, [a, b, c] => some (.and a b c)
  | 13, [a, b, c] => some (.or a b c)
  | 14, [a, b] => some (.not a b)
  | 15, [a, b] => some (.rmem a b)
  | 16, [a, b] => some (.wmem a b)
  | 17, [a] => some (.call a)
  | 18, [] => some .ret
  | 19, [a] => some (.out a)
  | 20, [a] => some (.inp a)
  | 21, [] => some .noop
  | _, _ => none

/-- The loop `for k in 1..n` of 30_encoding.md R91, from k on: each operand word read, then decoded. -/
def operandsAt (s : State) : Nat → Nat → Except FaultRecord (List Operand)
  | _, 0 => .ok []
  | k, n + 1 =>
    match memRead s (s.pc + BitVec.ofNat 16 k) with
    | none => .error ⟨.memoryOutOfRange, s.pc, s.pc + BitVec.ofNat 16 k, none⟩
    | some w =>
      match decodeOperand w with
      | none => .error ⟨.invalidOperand, s.pc, s.pc + BitVec.ofNat 16 k, some w⟩
      | some o =>
        match operandsAt s (k + 1) n with
        | .error r => .error r
        | .ok os => .ok (o :: os)

/-- `decode(A)` of 30_encoding.md R91 at A = pc: the opcode word and its operands, or the fault, one `MemRead` at a
time and in the order the rule writes. -/
def decodeAtPc (s : State) : Except FaultRecord (Nat × List Operand) :=
  match memRead s s.pc with
  | none => .error ⟨.memoryOutOfRange, s.pc, s.pc, none⟩
  | some op =>
    if 21 < op.toNat then .error ⟨.invalidOpcode, s.pc, s.pc, some op⟩
    else
      match operandsAt s 1 (operandCount op.toNat) with
      | .error r => .error r
      | .ok os => .ok (op.toNat, os)

/-! ### The terminal -/

/-- `n` reads in a row: the answers in order, and the terminal after them. -/
def readMany : Nat → Terminal → List (Option Char) × Terminal
  | 0, t => ([], t)
  | n + 1, t => (t.read.1 :: (readMany n t.read.2).1, (readMany n t.read.2).2)

/-- `n` pairs of `in` and `out` on one register (47_io.md R253); none where one of them gives no next state. -/
def echoPairs (r : Reg) : Nat → State → Option State
  | 0, s => some s
  | n + 1, s =>
    match exec (.inp (.reg r)) s with
    | .next t =>
      match exec (.out (.reg r)) t with
      | .next u => echoPairs r n u
      | .fault _ | .refused _ => none
    | .fault _ | .refused _ => none

/-! ### The image -/

/-- Word k of an image, `b[2k] + 256 * b[2k+1]` (70_reset_and_hazards.md R351). -/
def imageWord (bytes : List Byte) (k : Nat) : Nat :=
  (bytes.getD (2 * k) 0).toNat + 256 * (bytes.getD (2 * k + 1) 0).toNat

end Sys2Proof.Safety
end

