-- ==== Sys2Proof/Certificates/Slice0/Obligations.lean ====
section
/-! DEFINITION. The statements about the model, each from a numbered rule of spec/. -/

open Sys2Proof Sys2Proof.Machine Sys2Proof.Safety

/-! ### Decoding and encoding -/

/-- The words of 95_test_vectors.md L1-1, L1-12, L2-D1 to L2-D6, and one word sequence of each family, decode to the
instructions they stand for. -/
def Obligations.SpecWordsDecode : Prop :=
  decodeWords [9, 32771, 32770, 37] = .ok (.add (.reg 3) (.reg 2) (.lit 37), []) ∧
  decodeWords [1, 32775, 5] = .ok (.set (.reg 7) (.lit 5), []) ∧
  decodeWords [1, 32776, 5] = .error (.invalidOperand 1 32776) ∧
  decodeWords [21] = .ok (.noop, []) ∧
  decodeWords [22] = .error (.invalidOpcode 22) ∧
  decodeWords [32768] = .error (.invalidOpcode 32768) ∧
  decodeWords [4, 32768, 32776, 65535] = .error (.invalidOperand 2 32776) ∧
  decodeWords [1, 5, 7] = .ok (.set (.lit 5) (.lit 7), []) ∧
  decodeWords [5, 32770, 10, 3] = .ok (.gt (.reg 2) (.lit 10) (.lit 3), []) ∧
  decodeWords [7, 32768, 50] = .ok (.jt (.reg 0) (.lit 50), []) ∧
  decodeWords [16, 100, 32769] = .ok (.wmem (.lit 100) (.reg 1), []) ∧
  decodeWords [20, 32768] = .ok (.inp (.reg 0), []) ∧
  decodeWords [9] = .error (.truncated 1)

/-- 30_encoding.md R94: for every valid instruction, decoding the words that encode it gives it back, with the words
after it left; and what `encode` writes. -/
def Obligations.DecodeOfEncodeIsTheInstruction : Prop :=
  (∀ (i : Instr) (rest : List Word), i.wellFormed = true → decodeWords (encode i ++ rest) = .ok (i, rest)) ∧
  (∀ i : Instr, encode i = BitVec.ofNat 16 i.opcode :: i.operands.map encodeOperand) ∧
  (∀ v : Word, encodeOperand (.lit v) = v) ∧
  (∀ r : Reg, (encodeOperand (.reg r)).toNat = 32768 + r.val)

/-- The other direction (30_encoding.md R83, R91): what decodes is a well-formed instruction, and the words it was
read from are its encoding, so no two sequences of words stand for one instruction and none for two. -/
def Obligations.DecodedWordsAreTheEncoding : Prop :=
  ∀ (ws rest : List Word) (i : Instr), decodeWords ws = .ok (i, rest) → i.wellFormed = true ∧ ws = encode i ++ rest

/-- 30_encoding.md R83 and R85: the three classes of an operand word, in numbers and in bits. -/
def Obligations.OperandWordClasses : Prop :=
  ∀ w : Word,
    (w.toNat ≤ 32767 → decodeOperand w = some (.lit w)) ∧
    (∀ r : Reg, w.toNat = 32768 + r.val → decodeOperand w = some (.reg r)) ∧
    (32776 ≤ w.toNat → decodeOperand w = none) ∧
    (w.msb = false → decodeOperand w = some (.lit ((w.extractLsb' 0 15).setWidth 16))) ∧
    (w.msb = true → w.extractLsb' 3 12 = 0 → decodeOperand w = some (.reg (w.extractLsb' 0 3).toFin)) ∧
    (w.msb = true → w.extractLsb' 3 12 ≠ 0 → decodeOperand w = none)

/-! ### The step -/

/-- 40_execution_loop.md R122, R123: where the words at the pointer decode to an instruction, the step of a running
core is its execution, with nothing around it. -/
def Obligations.StepRunsTheDecodedInstruction : Prop :=
  ∀ (s : State) (i : Instr) (rest : List Word), s.status = .running →
    decodeWords (Memory.window s.mem s.pc.toNat 4) = .ok (i, rest) → step s = exec i s

/-- 40_execution_loop.md R121, R122: whichever well-formed instruction the words in memory at the pointer encode, the
step of a running core executes it. -/
def Obligations.StepRunsTheInstructionInMemory : Prop :=
  ∀ (s : State) (i : Instr), s.status = .running → i.wellFormed = true → s.pc.toNat + i.size ≤ 32768 →
    (∀ k, k < i.size → (encode i)[k]? = some (Memory.readWord s.mem (s.pc.toNat + k))) → step s = exec i s

/-- 10_state.md R25: the words of a fetched instruction all lie below 32768, so pc + size does not wrap. -/
def Obligations.FetchedInstructionFitsInMemory : Prop :=
  ∀ (s : State) (i : Instr), fetch s = .ok i →
    i.wellFormed = true ∧ s.pc.toNat + i.size ≤ 32768 ∧ (s.pcPlus i.size).toNat = s.pc.toNat + i.size

/-- 30_encoding.md R91, 40_execution_loop.md R121: the step of a running core follows the decoder the rule writes,
one `MemRead` at a time: its fault is taken with the state unchanged but for the status, and its instruction is
executed. -/
def Obligations.StepFollowsTheSpecsDecoder : Prop :=
  ∀ s : State, s.status = .running →
    (∀ r : FaultRecord, decodeAtPc s = .error r → step s = .next { s with status := .faulted r }) ∧
    (∀ (op : Nat) (os : List Operand), decodeAtPc s = .ok (op, os) →
      ∃ i, instruction op os = some i ∧ i.size = 1 + operandCount op ∧ step s = exec i s)

/-- 40_execution_loop.md R120, 10_state.md R33: a running core always has a next state. -/
def Obligations.RunningCoreAnswersANextState : Prop :=
  ∀ s : State, s.status = .running → ∃ t, step s = .next t

/-- 40_execution_loop.md R128: no step exists from a final status. -/
def Obligations.FinalStatusHasNoStep : Prop :=
  ∀ s : State, s.status ≠ .running → ∀ t, step s ≠ .next t

/-! ### Reset, load, invariants -/

/-- 10_state.md R36, 70_reset_and_hazards.md R350 (1), and for the empty accumulator 60_exceptions.md R330: the values
of reset, before an image. That there is no stack limit at reset is the model's choice (log entry 7): 10_state.md R29
leaves the parameter open, with `none` as its default. -/
def Obligations.ResetHoldsTheSpecsValues : Prop :=
  State.reset.pc = 0 ∧ (∀ r : Reg, State.reset.reg r = 0) ∧ (∀ n : Nat, Memory.readWord State.reset.mem n = 0) ∧
  State.reset.stack = [] ∧ State.reset.status = .running ∧ State.reset.outTrace = [] ∧
  State.reset.terminal.inBuf = [] ∧ State.reset.terminal.outAccum = [] ∧ State.reset.terminal.mode = .normal ∧
  State.reset.stackLimit = none

/-- 10_state.md R36, 70_reset_and_hazards.md R351, R353, R354: an image of an even number of bytes, at most 32768 words
and all legal, is loaded at address 0 with zeros after it, and the core is Running at 0 with registers 0 and an empty
stack. -/
def Obligations.LoadedImageStartsTheCore : Prop :=
  ∀ (bytes : List Byte) (n : Nat), bytes.length = 2 * n → n ≤ 32768 →
    (∀ k, k < n → imageWord bytes k ≤ 32775) →
    ∃ s, loadImage bytes = .ok s ∧
      (∀ k, k < n → (Memory.readWord s.mem k).toNat = imageWord bytes k) ∧
      (∀ k, n ≤ k → k < 32768 → Memory.readWord s.mem k = 0) ∧
      s.pc = 0 ∧ s.status = .running ∧ (∀ r : Reg, s.reg r = 0) ∧ s.stack = [] ∧ s.outTrace = [] ∧
      s.terminal.inBuf = [] ∧ s.terminal.mode = .normal

/-- 70_reset_and_hazards.md R352: an image with a word above 32775 is rejected with the index and word of the first;
an odd number of bytes or more than 32768 words is rejected as `InvalidImageSize`. Where an image has both errors it is
rejected, with either. -/
def Obligations.BadImagesAreRejected : Prop :=
  ∀ bytes : List Byte,
    (∀ k, bytes.length % 2 = 0 → bytes.length ≤ 65536 → 2 * k + 1 < bytes.length → 32775 < imageWord bytes k →
      (∀ j, j < k → imageWord bytes j ≤ 32775) →
      loadImage bytes =
        .error { cause := .invalidWord, index := some k, word := some (BitVec.ofNat 16 (imageWord bytes k)) }) ∧
    (bytes.length % 2 = 1 ∨ 65536 < bytes.length →
      (∀ k, 2 * k + 1 < bytes.length → imageWord bytes k ≤ 32775) →
      loadImage bytes = .error { cause := .invalidImageSize, index := none, word := none }) ∧
    (bytes.length % 2 = 1 ∨ 65536 < bytes.length → ∃ e, loadImage bytes = .error e)

/-- The invariant holds at reset. -/
def Obligations.ResetMeetsTheInvariant : Prop := Invariant State.reset

/-- Every step keeps the invariant: memory stays in canonical form inside the 32768 words (10_state.md R30), and the
stack within its limit (10_state.md R27). -/
def Obligations.StepKeepsTheInvariant : Prop :=
  ∀ s t : State, Invariant s → step s = .next t → Invariant t

/-- The open parameters of 00_scope.md R6 are fixed for the machine: no step changes them. That they are fields of the
state, fixed for the run, is the model's choice (log entries 6 and 7). -/
def Obligations.StepKeepsTheParameters : Prop :=
  ∀ s t : State, step s = .next t →
    t.stackLimit = s.stackLimit ∧ t.terminal.escapeMarker = s.terminal.escapeMarker

/-- The host's acts keep the invariant too (60_exceptions.md R342), a restore where what was saved meets it. -/
def Obligations.HostEventsKeepTheInvariant : Prop :=
  ∀ (e : HostEvent) (s t : State), Invariant s → hostEvent e s = some t →
    (∀ v, e = .restore v → Memory.wf v.mem = true ∧ ∀ n, s.stackLimit = some n → v.stack.length ≤ n) → Invariant t

/-! ### The instructions: encoding, result, frame, and where they fault -/

/-- 41_system.md R150: a running core whose word at the pointer is 0 halts; nothing else changes. -/
def Obligations.HaltResult : Prop :=
  encode .halt = [0] ∧
  ∀ s : State, exec .halt s = .next { s with status := .halted } ∧
    (s.status = .running → s.pc.toNat < 32768 → Memory.readWord s.mem s.pc.toNat = 0 →
      step s = .next { s with status := .halted })

/-- 41_system.md R151. -/
def Obligations.NoopResult : Prop :=
  encode .noop = [21] ∧
  ∀ s : State, ∃ t, exec .noop s = .next t ∧ Advances 1 s t ∧ SameRegs s t ∧ SameMem s t ∧ t.stack = s.stack ∧
    SameRest s t

/-- 42_move_stack.md R160. -/
def Obligations.SetResult : Prop :=
  ∀ (a b : Operand) (s : State), encode (.set a b) = [1, encodeOperand a, encodeOperand b] ∧
    ∃ t, exec (.set a b) s = .next t ∧ OnlyAssigns a (resolve s b).toNat 3 s t

/-- 42_move_stack.md R161: the push, and `StackOverflow` on a full stack of limited size. -/
def Obligations.PushResult : Prop :=
  ∀ (a : Operand) (s : State), encode (.push a) = [2, encodeOperand a] ∧
    (s.stackLimit ≠ some s.stack.length →
      ∃ t, exec (.push a) s = .next t ∧ t.stack = s.stack ++ [resolve s a] ∧ Advances 2 s t ∧ SameRegs s t ∧
        SameMem s t ∧ SameRest s t) ∧
    (s.stackLimit = some s.stack.length →
      exec (.push a) s = .next (faultedState s .stackOverflow s.pc (some 2)))

/-- 42_move_stack.md R162: the pop, with a literal destination too, and `StackUnderflow` on an empty stack. -/
def Obligations.PopResult : Prop :=
  ∀ (a : Operand) (s : State), encode (.pop a) = [3, encodeOperand a] ∧
    (∀ (l : List Word) (v : Word), s.stack = l ++ [v] →
      ∃ t, exec (.pop a) s = .next t ∧ Assigns a v.toNat s t ∧ t.stack = l ∧ Advances 2 s t ∧ SameMem s t ∧
        SameRest s t) ∧
    (s.stack = [] → exec (.pop a) s = .next (faultedState s .stackUnderflow s.pc (some 3)))

/-- 43_compare.md R180: exactly 1 or 0, comparing the full words. -/
def Obligations.EqResult : Prop :=
  ∀ (a b c : Operand) (s : State),
    encode (.eq a b c) = [4, encodeOperand a, encodeOperand b, encodeOperand c] ∧
    ∃ t, exec (.eq a b c) s = .next t ∧ OnlyAssigns a (if resolve s b = resolve s c then 1 else 0) 4 s t

/-- 43_compare.md R181: exactly 1 or 0, unsigned on the full words. -/
def Obligations.GtResult : Prop :=
  ∀ (a b c : Operand) (s : State),
    encode (.gt a b c) = [5, encodeOperand a, encodeOperand b, encodeOperand c] ∧
    ∃ t, exec (.gt a b c) s = .next t ∧
      OnlyAssigns a (if (resolve s b).toNat > (resolve s c).toNat then 1 else 0) 4 s t

/-- 44_control_transfer.md R190. -/
def Obligations.JmpResult : Prop :=
  ∀ (a : Operand) (s : State), encode (.jmp a) = [6, encodeOperand a] ∧
    ∃ t, exec (.jmp a) s = .next t ∧ t.pc = resolve s a ∧ SameRegs s t ∧ SameMem s t ∧ t.stack = s.stack ∧
      SameRest s t

/-- 44_control_transfer.md R191. -/
def Obligations.JtResult : Prop :=
  ∀ (a b : Operand) (s : State), encode (.jt a b) = [7, encodeOperand a, encodeOperand b] ∧
    ∃ t, exec (.jt a b) s = .next t ∧ t.pc = (if resolve s a ≠ 0 then resolve s b else s.pc + 3) ∧ SameRegs s t ∧
      SameMem s t ∧ t.stack = s.stack ∧ SameRest s t

/-- 44_control_transfer.md R192. -/
def Obligations.JfResult : Prop :=
  ∀ (a b : Operand) (s : State), encode (.jf a b) = [8, encodeOperand a, encodeOperand b] ∧
    ∃ t, exec (.jf a b) s = .next t ∧ t.pc = (if resolve s a = 0 then resolve s b else s.pc + 3) ∧ SameRegs s t ∧
      SameMem s t ∧ t.stack = s.stack ∧ SameRest s t

/-- 45_arith_logic.md R210. -/
def Obligations.AddResult : Prop :=
  ∀ (a b c : Operand) (s : State),
    encode (.add a b c) = [9, encodeOperand a, encodeOperand b, encodeOperand c] ∧
    ∃ t, exec (.add a b c) s = .next t ∧ OnlyAssigns a (((resolve s b).toNat + (resolve s c).toNat) % 32768) 4 s t

/-- 45_arith_logic.md R211: the full product before the reduction. -/
def Obligations.MultResult : Prop :=
  ∀ (a b c : Operand) (s : State),
    encode (.mult a b c) = [10, encodeOperand a, encodeOperand b, encodeOperand c] ∧
    ∃ t, exec (.mult a b c) s = .next t ∧ OnlyAssigns a (((resolve s b).toNat * (resolve s c).toNat) % 32768) 4 s t

/-- 45_arith_logic.md R212: the unsigned remainder, and `ModByZero` on a divisor of 0. -/
def Obligations.ModResult : Prop :=
  ∀ (a b c : Operand) (s : State),
    encode (.mod a b c) = [11, encodeOperand a, encodeOperand b, encodeOperand c] ∧
    (resolve s c ≠ 0 →
      ∃ t, exec (.mod a b c) s = .next t ∧ OnlyAssigns a ((resolve s b).toNat % (resolve s c).toNat) 4 s t) ∧
    (resolve s c = 0 → exec (.mod a b c) s = .next (faultedState s .modByZero s.pc (some 11)))

/-- 45_arith_logic.md R213: all 16 bits. -/
def Obligations.AndResult : Prop :=
  ∀ (a b c : Operand) (s : State),
    encode (.and a b c) = [12, encodeOperand a, encodeOperand b, encodeOperand c] ∧
    ∃ t, exec (.and a b c) s = .next t ∧ OnlyAssigns a ((resolve s b).toNat &&& (resolve s c).toNat) 4 s t

/-- 45_arith_logic.md R214: all 16 bits. -/
def Obligations.OrResult : Prop :=
  ∀ (a b c : Operand) (s : State),
    encode (.or a b c) = [13, encodeOperand a, encodeOperand b, encodeOperand c] ∧
    ∃ t, exec (.or a b c) s = .next t ∧ OnlyAssigns a ((resolve s b).toNat ||| (resolve s c).toNat) 4 s t

/-- 45_arith_logic.md R215, in the rule's equivalent form 32767 - (vb mod 32768); and twice in a row, on a value
0..=32767, it gives the value back. -/
def Obligations.NotResult : Prop :=
  ∀ (a b : Operand) (s : State), encode (.not a b) = [14, encodeOperand a, encodeOperand b] ∧
    ∃ t, exec (.not a b) s = .next t ∧ OnlyAssigns a (32767 - (resolve s b).toNat % 32768) 3 s t ∧
      ∀ r q : Reg, a = .reg r → (resolve s b).toNat ≤ 32767 →
        ∃ u, exec (.not (.reg q) (.reg r)) t = .next u ∧ u.reg q = resolve s b

/-- 46_memory_access.md R240: the word at the effective address, and `MemoryOutOfRange` at 32768 and above, with a
literal destination too. -/
def Obligations.RmemResult : Prop :=
  ∀ (a b : Operand) (s : State), encode (.rmem a b) = [15, encodeOperand a, encodeOperand b] ∧
    ((resolve s b).toNat < 32768 →
      ∃ t, exec (.rmem a b) s = .next t ∧
        OnlyAssigns a (Memory.readWord s.mem (resolve s b).toNat).toNat 3 s t) ∧
    (32768 ≤ (resolve s b).toNat →
      exec (.rmem a b) s = .next (faultedState s .memoryOutOfRange (resolve s b) none))

/-- 46_memory_access.md R241: the word at the effective address, and `MemoryOutOfRange` at 32768 and above. That the
stored word is the two bytes 2n and 2n + 1, which the frame names, is the model's choice (log entry 1). -/
def Obligations.WmemResult : Prop :=
  ∀ (a b : Operand) (s : State), encode (.wmem a b) = [16, encodeOperand a, encodeOperand b] ∧
    (Memory.wf s.mem = true → (resolve s a).toNat < 32768 →
      ∃ t, exec (.wmem a b) s = .next t ∧ Memory.readWord t.mem (resolve s a).toNat = resolve s b ∧
        (∀ k : Nat, k ≠ 2 * (resolve s a).toNat → k ≠ 2 * (resolve s a).toNat + 1 →
          Memory.readByte t.mem k = Memory.readByte s.mem k) ∧
        Advances 3 s t ∧ SameRegs s t ∧ t.stack = s.stack ∧ SameRest s t) ∧
    (32768 ≤ (resolve s a).toNat →
      exec (.wmem a b) s = .next (faultedState s .memoryOutOfRange (resolve s a) none))

/-- 44_control_transfer.md R193: the return address pc + 2 is pushed and the pointer set, and a `ret` that follows
returns to it with the stack as before the call; `StackOverflow` on a full stack of limited size. -/
def Obligations.CallResult : Prop :=
  ∀ (a : Operand) (s : State), encode (.call a) = [17, encodeOperand a] ∧
    (s.stackLimit ≠ some s.stack.length →
      ∃ t, exec (.call a) s = .next t ∧ t.stack = s.stack ++ [s.pc + 2] ∧ t.pc = resolve s a ∧ SameRegs s t ∧
        SameMem s t ∧ SameRest s t ∧
        ∃ u, exec .ret t = .next u ∧ u.pc = s.pc + 2 ∧ u.stack = s.stack ∧ SameRegs s u ∧ SameMem s u ∧
          SameRest s u) ∧
    (s.stackLimit = some s.stack.length →
      exec (.call a) s = .next (faultedState s .stackOverflow s.pc (some 17)))

/-- 44_control_transfer.md R194: the popped word becomes the pointer; on an empty stack a clean halt. -/
def Obligations.RetResult : Prop :=
  encode .ret = [18] ∧
  ∀ s : State,
    (∀ (l : List Word) (v : Word), s.stack = l ++ [v] →
      ∃ t, exec .ret s = .next t ∧ t.pc = v ∧ t.stack = l ∧ SameRegs s t ∧ SameMem s t ∧ SameRest s t) ∧
    (s.stack = [] → exec .ret s = .next { s with status := .halted })

/-- 47_io.md R250: the word is appended to the trace and to the terminal's accumulator, unchanged. -/
def Obligations.OutResult : Prop :=
  ∀ (a : Operand) (s : State), encode (.out a) = [19, encodeOperand a] ∧
    ∃ t, exec (.out a) s = .next t ∧ t.outTrace = s.outTrace ++ [resolve s a] ∧
      t.terminal = { s.terminal with outAccum := s.terminal.outAccum ++ [resolve s a] } ∧ Advances 2 s t ∧
      SameRegs s t ∧ SameMem s t ∧ t.stack = s.stack ∧ t.status = s.status ∧ t.stackLimit = s.stackLimit

/-- 47_io.md R251, R252 (the answer drawn from the terminal in the state: log entry 3): where the terminal's `read` gives a character, its code is assigned, with a literal
destination too, and the pointer advances; where it gives none the core does not change. -/
def Obligations.InResult : Prop :=
  ∀ (a : Operand) (s : State), encode (.inp a) = [20, encodeOperand a] ∧
    (∀ (c : Char) (u : Terminal), s.terminal.read = (some c, u) →
      ∃ t, exec (.inp a) s = .next t ∧ Assigns a (charCode c).toNat s t ∧ Advances 2 s t ∧ SameMem s t ∧
        t.stack = s.stack ∧ t.status = s.status ∧ t.outTrace = s.outTrace ∧ t.terminal = u ∧
        t.stackLimit = s.stackLimit) ∧
    (∀ u : Terminal, s.terminal.read = (none, u) → exec (.inp a) s = .next { s with terminal := u })

/-! ### The whole machine -/

/-- 10_state.md R22: no instruction changes a register but through its destination operand. -/
def Obligations.OnlyTheDestinationRegisterChanges : Prop :=
  ∀ (i : Instr) (s t : State), exec i s = .next t → ∀ r : Reg, i.dest ≠ some (.reg r) → t.reg r = s.reg r

/-- 20_memory.md R58: no instruction but `wmem` touches memory with a store, and it changes no byte outside the word
it stores to; that these are the bytes 2n and 2n + 1 is the model's choice (log entry 1). -/
def Obligations.OnlyTheStoredWordChangesInMemory : Prop :=
  ∀ (i : Instr) (s t : State), Memory.wf s.mem = true → exec i s = .next t →
    ∀ k : Nat, (∀ a, storeAddress i s = some a → k ≠ 2 * a ∧ k ≠ 2 * a + 1) →
      Memory.readByte t.mem k = Memory.readByte s.mem k

/-- 10_state.md R26: only push, pop, call and ret change the stack, each at the top by one word. -/
def Obligations.OnlyStackInstructionsChangeTheStack : Prop :=
  ∀ (i : Instr) (s t : State), exec i s = .next t →
    t.stack = s.stack ∨ (∃ a, i = .push a ∧ t.stack = s.stack ++ [resolve s a]) ∨
      (∃ a, i = .call a ∧ t.stack = s.stack ++ [s.pc + 2]) ∨
      (((∃ a, i = .pop a) ∨ i = .ret) ∧ ∃ v, s.stack = t.stack ++ [v])

/-- 20_memory.md R50, 10_state.md R35: the terminal is reached only by `in` and `out`; only `out` emits, and it leaves
the input side alone; `in` leaves the output side alone. -/
def Obligations.OnlyInAndOutReachTheTerminal : Prop :=
  ∀ (i : Instr) (s t : State), exec i s = .next t →
    ((∀ a, i ≠ .out a) → t.outTrace = s.outTrace ∧ t.terminal.outAccum = s.terminal.outAccum) ∧
    ((∀ a, i ≠ .inp a) → t.terminal = { s.terminal with outAccum := t.terminal.outAccum })

/-- 40_execution_loop.md R124: the pointer after every instruction, and the status the table gives with it; `call`
pushes `next`; an instruction that faults leaves the pointer. -/
def Obligations.PointerAndStatusFollowTheTable : Prop :=
  ∀ (i : Instr) (s t : State), exec i s = .next t →
    (ExecuteFaults i s → t.pc = s.pc ∧ ∃ r, t.status = .faulted r) ∧
    (¬ ExecuteFaults i s → t.pc = pcTable i s ∧
      t.status = (if i = .halt ∨ (i = .ret ∧ s.stack = []) then .halted else s.status) ∧
      ∀ a, i = .call a → t.stack = s.stack ++ [s.pc + 2])

/-- 60_exceptions.md R304: a faulting step changes nothing but the status, and the record's pc is the pointer. Of the
record's other fields (60_exceptions.md R302) it says what each cause fixes: the offending word is the one in memory at
the address recorded. -/
def Obligations.FaultsArePrecise : Prop :=
  ∀ (s t : State) (r : FaultRecord), s.status = .running → step s = .next t → t.status = .faulted r →
    t = { s with status := .faulted r } ∧ r.pc = s.pc ∧
    match r.cause with
    | .invalidOpcode | .stackUnderflow | .modByZero | .stackOverflow =>
      r.addr = s.pc ∧ r.word = some (Memory.readWord s.mem s.pc.toNat)
    | .invalidOperand =>
      ∃ k, 1 ≤ k ∧ k ≤ 3 ∧ r.addr.toNat = s.pc.toNat + k ∧ r.word = some (Memory.readWord s.mem (s.pc.toNat + k))
    | .memoryOutOfRange => 32768 ≤ r.addr.toNat ∧ r.word = none
    | .invalidWord | .invalidImageSize => False

/-- 10_state.md R33, 40_execution_loop.md R128: a step that halts is one of `halt`, or of `ret` on an empty stack, and
changes nothing but the status. -/
def Obligations.OnlyHaltAndEmptyRetHalt : Prop :=
  ∀ s t : State, s.status = .running → step s = .next t → t.status = .halted →
    (fetch s = .ok .halt ∨ (fetch s = .ok .ret ∧ s.stack = [])) ∧ t = { s with status := .halted }

/-- 42_move_stack.md R163: push, then pop into any destination, gives the value and leaves the stack as before. -/
def Obligations.PushThenPopGivesTheValue : Prop :=
  ∀ (a b : Operand) (s : State), s.stackLimit ≠ some s.stack.length →
    ∃ t u, exec (.push a) s = .next t ∧ exec (.pop b) t = .next u ∧ Assigns b (resolve s a).toNat s u ∧
      u.stack = s.stack ∧ SameMem s u ∧ SameRest s u

/-- 70_reset_and_hazards.md R361: a word stored, by `wmem` or by the host, is the word the next fetch of that address
reads; and a `wmem` executes as its words stood before it stored, its own words among what it may store to. -/
def Obligations.StoreIsSeenByTheNextFetch : Prop :=
  (∀ (s t : State) (addr v : Word) (p k : Nat), Memory.wf s.mem = true →
    ((∃ a b, resolve s a = addr ∧ resolve s b = v ∧ addr.toNat < 32768 ∧ exec (.wmem a b) s = .next t) ∨
      hostWrite addr v s = some t) →
    k < 4 → addr.toNat = p + k → (Memory.window t.mem p 4)[k]? = some v) ∧
  (∀ (s : State) (a b : Operand), s.status = .running → fetch s = .ok (.wmem a b) → step s = exec (.wmem a b) s)

/-- 20_memory.md R65: a word stored, by `wmem` or by the host, is the word every later fetch of that address reads:
after any number of steps and acts of the host, in any order, as long as none of them stores to that word again. -/
def Obligations.StoreIsSeenByEveryLaterFetch : Prop :=
  ∀ (s t u : State) (addr v : Word) (p k : Nat), Memory.wf s.mem = true →
    ((∃ a b, resolve s a = addr ∧ resolve s b = v ∧ addr.toNat < 32768 ∧ exec (.wmem a b) s = .next t) ∨
      hostWrite addr v s = some t) →
    ReachesWithoutStore addr.toNat t u →
    k < 4 → addr.toNat = p + k → (Memory.window u.mem p 4)[k]? = some v

/-- 10_state.md R23, 45_arith_logic.md R209: add, mult, not, eq, gt, and mod with a divisor from 1 to 32767, write a
value below 32768. -/
def Obligations.BoundedResults : Prop :=
  ∀ (i : Instr) (s t : State) (r : Reg) (b c : Operand),
    (i = .add (.reg r) b c ∨ i = .mult (.reg r) b c ∨ i = .not (.reg r) b ∨ i = .eq (.reg r) b c ∨
      i = .gt (.reg r) b c ∨ (i = .mod (.reg r) b c ∧ 1 ≤ (resolve s c).toNat ∧ (resolve s c).toNat < 32768)) →
    exec i s = .next t → (t.reg r).toNat < 32768

/-! ### The terminal and the host -/

/-- 60_exceptions.md R331, R332: a waiting line that is no escape line is delivered character by character, in order,
each once, its newline last; then the next line waits. That a line of live input carries its newline is the model's
reading (log entry 12). -/
def Obligations.LineIsDeliveredInOrder : Prop :=
  ∀ (t : Terminal) (line : List Char) (rest : List (List Char)), t.inBuf = [] → t.mode = .normal →
    t.source.lines = line :: rest → t.isEscapeLine line = false →
    readMany (line.length + 1) t =
      ((line ++ ['\n']).map some, { t with source := { t.source with lines := rest } })

/-- 60_exceptions.md R334: an escape line gives the program no character: the `in` that pulled it changes nothing but
the terminal, which loses that line and is in debug mode until the host resumes it with `quit`; and `quit` sets the
mode back to normal and changes nothing else. -/
def Obligations.EscapeLineDeliversNothing : Prop :=
  ∀ (a : Operand) (s : State) (line : List Char) (rest : List (List Char)), s.terminal.inBuf = [] →
    s.terminal.mode = .normal → s.terminal.source.lines = line :: rest → s.terminal.escapeMarker <+: line →
    ∃ t, exec (.inp a) s = .next t ∧
      t = { s with terminal :=
        { s.terminal with source := { s.terminal.source with lines := rest }, mode := .debug } } ∧
      applyRequest .quit t = some { t with terminal := { t.terminal with mode := .normal } }

/-- 40_execution_loop.md R126: an `in` that finds no character changes nothing of the core, and with nothing to pull,
nothing at all, however often it is retried. That no line arrives meanwhile is the model's choice (log entry 14): a run
of step alone shows a host that does nothing, where 60_exceptions.md R342 lets a line arrive at any time. -/
def Obligations.SuspendedInIsRetried : Prop :=
  ∀ (a : Operand) (s : State), s.status = .running → fetch s = .ok (.inp a) →
    (s.terminal.read.1 = none → ∃ u, step s = .next { s with terminal := u }) ∧
    (s.terminal.inBuf = [] → s.terminal.source.lines = [] → ∀ k, Host.Core.run Sys2Proof.core k s = .next s)

/-- 47_io.md R253: each `in` and `out` of one register echoes a character, in order, and leaves the rest unread. -/
def Obligations.EchoReturnsTheCharacters : Prop :=
  ∀ (r : Reg) (cs rest : List Char) (s : State), s.terminal.inBuf = cs ++ rest →
    ∃ t, echoPairs r cs.length s = some t ∧ t.outTrace = s.outTrace ++ cs.map charCode ∧
      t.terminal.outAccum = s.terminal.outAccum ++ cs.map charCode ∧ t.terminal.inBuf = rest

/-- 60_exceptions.md R335: draining the accumulator does not affect the core: the drained machine takes the same step,
the accumulator aside. -/
def Obligations.DrainingDoesNotAffectTheCore : Prop :=
  ∀ s : State,
    (∀ t, step s = .next t → ∃ u, step (drainOutput s) = .next u ∧ drainOutput u = drainOutput t) ∧
    (∀ f, step s = .fault f → step (drainOutput s) = .fault f)

/-- 20_memory.md R62: a restore is allowed from any status and, with the same terminal and limit, the restored core
goes on as the saved one, for any number of steps. That a restore leaves the terminal as it is, is the model's reading
(log entry 13), and that the host does nothing more during the two runs is the model's choice (log entry 14). -/
def Obligations.RestoredCoreContinuesAsSaved : Prop :=
  ∀ (s u : State), s.status = .running → u.terminal = s.terminal → u.stackLimit = s.stackLimit →
    ∃ v, hostEvent (.restore (save s)) u = some v ∧ v.status = .running ∧ save v = save s ∧
      ∀ (k : Nat) (t : State), Host.Core.run Sys2Proof.core k s = .next t →
        ∃ w, Host.Core.run Sys2Proof.core k v = .next w ∧ save w = save t ∧ w.status = t.status ∧
          w.terminal = t.terminal

/-- 60_exceptions.md R340, D19: `setr` and `setm` write one register or one word of a running core, out-of-range
arguments write nothing, the printing commands change nothing, and `quit` only leaves debug mode. -/
def Obligations.DebuggerWritesOnlyWhatItNames : Prop :=
  ∀ (s : State) (x v : Word), s.status = .running → Memory.wf s.mem = true →
    (∀ r : Reg, x.toNat = r.val → ∃ t, applyRequest (debugRequest (.setr x v)) s = some t ∧
      Assigns (.reg r) v.toNat s t ∧ SameMem s t ∧ t.pc = s.pc ∧ t.stack = s.stack ∧ SameRest s t) ∧
    (8 ≤ x.toNat → applyRequest (debugRequest (.setr x v)) s = some s) ∧
    (x.toNat < 32768 → ∃ t, applyRequest (debugRequest (.setm x v)) s = some t ∧
      Memory.readWord t.mem x.toNat = v ∧
      (∀ n, n ≠ x.toNat → Memory.readWord t.mem n = Memory.readWord s.mem n) ∧ SameRegs s t ∧ t.pc = s.pc ∧
      t.stack = s.stack ∧ SameRest s t) ∧
    (32768 ≤ x.toNat → applyRequest (debugRequest (.setm x v)) s = some s) ∧
    (∀ c, c ∈ [DebugCommand.view x, .regs, .stack, .print x, .show x v, .verbose true, .verbose false, .ignored,
      .help] → applyRequest (debugRequest c) s = some s) ∧
    (∃ t, applyRequest (debugRequest .quit) s = some t ∧ t = { s with terminal := t.terminal } ∧
      t.terminal = { s.terminal with mode := .normal })

/-- 70_reset_and_hazards.md R370: a run under a step counter ends in exactly one of the outcomes, and the state it
leaves shows which. Where two outcomes coincide, which one is reported is the model's choice (log entry 20), since R370
gives no precedence: a core that is halted, faulted or out of input is reported as that, and a stop by the host (the
counter, the breakpoint, debug mode) only where it is none of them. -/
def Obligations.RunEndsAsItsStateShows : Prop :=
  ∀ (fuel : Nat) (c c' : HostContext) (s t : State) (e : RunEnd), runLoop fuel c s = (e, c', t) →
    (e = .halted ↔ t.status = .halted) ∧ (∀ r, e = .faulted r ↔ t.status = .faulted r) ∧
    (e = .inputExhausted ↔ t.status = .running ∧ inputExhausted t = true) ∧
    (e = .stopped ↔ t.status = .running ∧ inputExhausted t = false)
end

