-- ==== Sys2Proof/Laws/Decode.lean ====
section
/-! SUPPORT. What the decoder and the encoder do, one lemma per function. -/

namespace Sys2Proof

/-- Every register number is below 8. -/
theorem Reg.lt (r : Reg) : r.val < 8 := r.isLt

/-- An operand word up to 32767 is that literal (30_encoding.md R84). -/
theorem decodeOperand_lit (w : Word) (h : w.toNat ≤ 32767) : decodeOperand w = some (.lit w) := by
  simp only [decodeOperand, Config.litMax, if_pos h]

/-- An operand word 32768 + r is register r (30_encoding.md R84). -/
theorem decodeOperand_reg (w : Word) (r : Reg) (h : w.toNat = 32768 + r.val) : decodeOperand w = some (.reg r) := by
  have hr := r.lt
  have h1 : ¬ w.toNat ≤ 32767 := by omega
  have h2 : w.toNat ≤ 32775 := by omega
  simp only [decodeOperand, Config.litMax, Config.maxLegalWord, Config.regBase, if_neg h1, dif_pos h2,
    Option.some.injEq, Operand.reg.injEq, Fin.ext_iff]
  omega

/-- An operand word above 32775 is no operand (30_encoding.md R84). -/
theorem decodeOperand_invalid (w : Word) (h : 32775 < w.toNat) : decodeOperand w = none := by
  have h1 : ¬ w.toNat ≤ 32767 := by omega
  have h2 : ¬ w.toNat ≤ 32775 := by omega
  simp only [decodeOperand, Config.litMax, Config.maxLegalWord, if_neg h1, dif_neg h2]

/-- The number of an operand's word (30_encoding.md R94). -/
theorem toNat_encodeOperand (o : Operand) :
    (encodeOperand o).toNat = match o with
      | .lit v => v.toNat
      | .reg r => 32768 + r.val := by
  cases o with
  | lit v => rfl
  | reg r =>
    have hr := r.lt
    simp only [encodeOperand, Config.regBase, BitVec.toNat_ofNat]
    omega

/-- A well-formed operand's word is a legal word (30_encoding.md R83). -/
theorem encodeOperand_legal (o : Operand) (h : o.wellFormed = true) : (encodeOperand o).toNat ≤ 32775 := by
  rw [toNat_encodeOperand]
  cases o with
  | lit v =>
    simp only [Operand.wellFormed, Config.litMax, decide_eq_true_eq] at h
    exact Nat.le_trans h (by decide)
  | reg r => have hr := r.lt; simp only; omega

/-- Decoding an operand's word gives it back (30_encoding.md R94). -/
theorem decodeOperand_encodeOperand (o : Operand) (h : o.wellFormed = true) :
    decodeOperand (encodeOperand o) = some o := by
  cases o with
  | lit v =>
    simp only [Operand.wellFormed, Config.litMax, decide_eq_true_eq] at h
    exact decodeOperand_lit v h
  | reg r => exact decodeOperand_reg _ r (toNat_encodeOperand (.reg r))

/-- Encoding a decoded operand gives its word back, and the operand is well-formed. -/
theorem encodeOperand_of_decodeOperand (w : Word) (o : Operand) (h : decodeOperand w = some o) :
    encodeOperand o = w ∧ o.wellFormed = true := by
  rcases Nat.lt_or_ge 32767 w.toNat with h1 | h1
  · rcases Nat.lt_or_ge 32775 w.toNat with h2 | h2
    · rw [decodeOperand_invalid w h2] at h; cases h
    · have hr : decodeOperand w = some (.reg ⟨w.toNat - 32768, by simp only [Config.numRegs]; omega⟩) :=
        decodeOperand_reg w _ (by simp only; omega)
      rw [hr] at h
      cases h
      refine ⟨BitVec.eq_of_toNat_eq ?_, rfl⟩
      rw [toNat_encodeOperand]
      simp only
      omega
  · rw [decodeOperand_lit w h1] at h
    cases h
    exact ⟨rfl, by simpa [Operand.wellFormed, Config.litMax] using h1⟩

/-- The operand at the head of the words, where it is the encoding of a well-formed one. -/
theorem operandAt_encodeOperand (k : Nat) (o : Operand) (ws : List Word) (h : o.wellFormed = true) :
    operandAt k (encodeOperand o :: ws) = .ok (o, ws) := by
  simp only [operandAt, decodeOperand_encodeOperand o h]

/-- What `operandAt` answers an operand for: its encoding at the head. -/
theorem operandAt_ok (k : Nat) (ws : List Word) (o : Operand) (rest : List Word)
    (h : operandAt k ws = .ok (o, rest)) : ws = encodeOperand o :: rest ∧ o.wellFormed = true := by
  cases ws with
  | nil => cases h
  | cons w ws =>
    simp only [operandAt] at h
    split at h
    · next o' ho' =>
      cases h
      obtain ⟨h1, h2⟩ := encodeOperand_of_decodeOperand w o ho'
      exact ⟨by rw [h1], h2⟩
    · cases h

/-- No number above 21 has a row (30_encoding.md R82). -/
theorem opcodeRow_none (n : Nat) (h : 21 < n) : opcodeRow n = none := by
  obtain ⟨k, rfl⟩ : ∃ k, n = k + 22 := ⟨n - 22, by omega⟩
  rfl

/-- Every number up to 21 has a row (30_encoding.md R82). -/
theorem opcodeRow_some : ∀ n, n ≤ 21 → (opcodeRow n).isSome = true := by decide

/-- The opcode of an instruction is one of the 22 (30_encoding.md R82). -/
theorem Instr.opcode_le (i : Instr) : i.opcode ≤ 21 := by cases i <;> simp [Instr.opcode]

/-- The opcode word of an instruction holds its number. -/
theorem Instr.toNat_opcode (i : Instr) : (BitVec.ofNat 16 i.opcode).toNat = i.opcode := by
  have := i.opcode_le
  simp only [BitVec.toNat_ofNat]
  omega

/-- An instruction is 1 to 4 words (30_encoding.md R80). -/
theorem Instr.size_le (i : Instr) : i.size ≤ 4 := by cases i <;> simp [Instr.size, Instr.operands]

/-- The encoding has as many words as the instruction's size (30_encoding.md R80). -/
theorem length_encode (i : Instr) : (encode i).length = i.size := by
  simp only [encode, List.length_cons, List.length_map, Instr.size]
  omega

end Sys2Proof
end

