-- ==== Sys2Proof/Laws/Memory.lean ====
section
/-! SUPPORT. The laws of memory: a read after a write to the same place gives the value written, a write leaves every
other place alone, every operation keeps the canonical form, and equal memories are equal data. -/

namespace Sys2Proof.Machine

/-! ### Bytes of a word -/

@[simp] theorem ofLoHi_loByte_hiByte (w : Word) : ofLoHi (loByte w) (hiByte w) = w := by
  apply BitVec.eq_of_getLsbD_eq
  intro i hi
  simp only [ofLoHi, loByte, hiByte, BitVec.getLsbD_append, BitVec.getLsbD_extractLsb']
  by_cases h : i < 8
  · simp [h]
  · have h2 : i - 8 < 8 := by omega
    have h3 : 8 + (i - 8) = i := by omega
    simp [h, h2, h3]

@[simp] theorem loByte_ofLoHi (lo hi : Byte) : loByte (ofLoHi lo hi) = lo := by
  apply BitVec.eq_of_getLsbD_eq
  intro i hi'
  simp only [ofLoHi, loByte, BitVec.getLsbD_append, BitVec.getLsbD_extractLsb']
  simp [hi']

@[simp] theorem hiByte_ofLoHi (lo hi : Byte) : hiByte (ofLoHi lo hi) = hi := by
  apply BitVec.eq_of_getLsbD_eq
  intro i hi'
  simp only [ofLoHi, hiByte, BitVec.getLsbD_append, BitVec.getLsbD_extractLsb']
  simp [hi']

theorem toNat_ofLoHi (lo hi : Byte) : (ofLoHi lo hi).toNat = lo.toNat + 256 * hi.toNat := by
  have h := lo.isLt
  simp only [ofLoHi, BitVec.toNat_append]
  rw [← Nat.shiftLeft_add_eq_or_of_lt h, Nat.shiftLeft_eq]
  omega

@[simp] theorem ofLoHi_zero : ofLoHi Config.unlistedByte Config.unlistedByte = 0 := by decide

/-! ### Reading -/

@[simp] theorem Memory.readByte_nil (a : Nat) : Memory.readByte [] a = Config.unlistedByte := rfl

theorem Memory.readByte_cons (k : Nat) (b : Byte) (m : Memory) (a : Nat) :
    Memory.readByte ((k, b) :: m) a = if k = a then b else Memory.readByte m a := rfl

/-- Below the least listed address every byte reads as an unlisted one. -/
theorem Memory.readByte_below : ∀ (m : Memory) (lo a : Nat), Memory.wfFrom lo m = true → a < lo →
    Memory.readByte m a = Config.unlistedByte
  | [], _, _, _, _ => rfl
  | (k, b) :: m, lo, a, h, ha => by
    simp only [Memory.wfFrom, Bool.and_eq_true, decide_eq_true_eq] at h
    obtain ⟨⟨⟨h1, _⟩, _⟩, h4⟩ := h
    rw [Memory.readByte_cons, if_neg (by omega)]
    exact Memory.readByte_below m (k + 1) a h4 (by omega)

theorem Memory.readByte_consByte (a : Nat) (v : Byte) (m : Memory) (lo : Nat) (hm : Memory.wfFrom lo m = true)
    (ha : a < lo) (x : Nat) :
    Memory.readByte (Memory.consByte a v m) x = if a = x then v else Memory.readByte m x := by
  unfold Memory.consByte
  split
  · next hv =>
    split
    · next hx => subst hx; rw [Memory.readByte_below m lo a hm ha, hv]
    · rfl
  · rfl

/-- Reading a byte after writing one. -/
theorem Memory.readByte_writeByte : ∀ (m : Memory) (lo a : Nat) (v : Byte) (x : Nat), Memory.wfFrom lo m = true →
    Memory.readByte (Memory.writeByte m a v) x = if a = x then v else Memory.readByte m x
  | [], lo, a, v, x, _ => Memory.readByte_consByte a v [] (a + 1) rfl (by omega) x
  | (k, b) :: m, lo, a, v, x, h => by
    have h4 : Memory.wfFrom (k + 1) m = true := by
      simp only [Memory.wfFrom, Bool.and_eq_true] at h; exact h.2
    have hk : Memory.wfFrom k ((k, b) :: m) = true := by
      simp only [Memory.wfFrom, Bool.and_eq_true, decide_eq_true_eq] at h ⊢
      exact ⟨⟨⟨le_refl _, h.1.1.2⟩, h.1.2⟩, h.2⟩
    unfold Memory.writeByte
    split
    · next hlt => exact Memory.readByte_consByte a v _ k hk hlt x
    · split
      · next he =>
        subst he
        rw [Memory.readByte_consByte a v m (a + 1) h4 (by omega) x, Memory.readByte_cons]
        split <;> rfl
      · next hne =>
        rw [Memory.readByte_cons, Memory.readByte_cons, Memory.readByte_writeByte m (k + 1) a v x h4]
        by_cases hx : k = x
        · have : a ≠ x := by omega
          simp [hx, this]
        · simp [hx]

/-! ### Canonical form -/

theorem Memory.wfFrom_mono : ∀ (m : Memory) (lo lo' : Nat), lo' ≤ lo → Memory.wfFrom lo m = true →
    Memory.wfFrom lo' m = true
  | [], _, _, _, _ => rfl
  | (k, b) :: m, lo, lo', hl, h => by
    simp only [Memory.wfFrom, Bool.and_eq_true, decide_eq_true_eq] at h ⊢
    exact ⟨⟨⟨by omega, h.1.1.2⟩, h.1.2⟩, h.2⟩

theorem Memory.wfFrom_consByte (a : Nat) (v : Byte) (m : Memory) (lo : Nat) (hl : lo ≤ a)
    (ha : a < 2 * Config.memWords) (hm : Memory.wfFrom (a + 1) m = true) :
    Memory.wfFrom lo (Memory.consByte a v m) = true := by
  unfold Memory.consByte
  split
  · exact Memory.wfFrom_mono m (a + 1) lo (by omega) hm
  · next hv =>
    simp only [Memory.wfFrom, Bool.and_eq_true, decide_eq_true_eq]
    exact ⟨⟨⟨hl, ha⟩, hv⟩, hm⟩

theorem Memory.wfFrom_writeByte : ∀ (m : Memory) (lo a : Nat) (v : Byte), lo ≤ a → a < 2 * Config.memWords →
    Memory.wfFrom lo m = true → Memory.wfFrom lo (Memory.writeByte m a v) = true
  | [], lo, a, v, hl, ha, _ => Memory.wfFrom_consByte a v [] lo hl ha rfl
  | (k, b) :: m, lo, a, v, hl, ha, h => by
    have h' := h
    simp only [Memory.wfFrom, Bool.and_eq_true, decide_eq_true_eq] at h
    obtain ⟨⟨⟨h1, h2⟩, h3⟩, h4⟩ := h
    unfold Memory.writeByte
    split
    · next hlt =>
      refine Memory.wfFrom_consByte a v _ lo hl ha ?_
      simp only [Memory.wfFrom, Bool.and_eq_true, decide_eq_true_eq]
      exact ⟨⟨⟨by omega, h2⟩, h3⟩, h4⟩
    · split
      · next he => subst he; exact Memory.wfFrom_consByte a v m lo hl ha h4
      · next hne =>
        simp only [Memory.wfFrom, Bool.and_eq_true, decide_eq_true_eq]
        exact ⟨⟨⟨h1, h2⟩, h3⟩, Memory.wfFrom_writeByte m (k + 1) a v (by omega) ha h4⟩

/-- Writing a byte inside memory keeps the canonical form. -/
theorem Memory.wf_writeByte (m : Memory) (a : Nat) (v : Byte) (ha : a < 2 * Config.memWords)
    (h : Memory.wf m = true) : Memory.wf (Memory.writeByte m a v) = true :=
  Memory.wfFrom_writeByte m 0 a v (Nat.zero_le _) ha h

/-- Writing a word inside memory keeps the canonical form. -/
theorem Memory.wf_writeWord (m : Memory) (n : Nat) (v : Word) (hn : n < Config.memWords) (h : Memory.wf m = true) :
    Memory.wf (Memory.writeWord m n v) = true := by
  simp only [Config.memWords] at hn
  exact Memory.wf_writeByte _ _ _ (by simp only [Config.memWords]; omega)
    (Memory.wf_writeByte _ _ _ (by simp only [Config.memWords]; omega) h)

/-- Placing words keeps the canonical form. -/
theorem Memory.wf_writeWords : ∀ (ws : List Word) (m : Memory) (n : Nat), Memory.wf m = true →
    Memory.wf (Memory.writeWords m n ws) = true
  | [], _, _, h => h
  | w :: ws, m, n, h => by
    unfold Memory.writeWords
    split
    · next hn => exact Memory.wf_writeWords ws _ _ (Memory.wf_writeWord m n w hn h)
    · exact h

/-- The memory at reset is in canonical form. -/
theorem Memory.wf_reset : Memory.wf State.reset.mem = true := rfl

/-- In canonical form, memories that read alike are the same data. -/
theorem Memory.ext_of_readByte : ∀ (m m' : Memory) (lo lo' : Nat), Memory.wfFrom lo m = true →
    Memory.wfFrom lo' m' = true → (∀ a, Memory.readByte m a = Memory.readByte m' a) → m = m'
  | [], [], _, _, _, _, _ => rfl
  | [], (k, b) :: m', _, _, _, h', hr => by
    have := hr k
    simp only [Memory.wfFrom, Bool.and_eq_true, decide_eq_true_eq] at h'
    rw [Memory.readByte_nil, Memory.readByte_cons, if_pos rfl] at this
    exact absurd this.symm h'.1.2
  | (k, b) :: m, [], _, _, h, _, hr => by
    have := hr k
    simp only [Memory.wfFrom, Bool.and_eq_true, decide_eq_true_eq] at h
    rw [Memory.readByte_nil, Memory.readByte_cons, if_pos rfl] at this
    exact absurd this h.1.2
  | (k, b) :: m, (k', b') :: m', lo, lo', h, h', hr => by
    have hh := h
    have hh' := h'
    simp only [Memory.wfFrom, Bool.and_eq_true, decide_eq_true_eq] at h h'
    have hk : k = k' := by
      rcases Nat.lt_trichotomy k k' with hlt | he | hgt
      · have := hr k
        rw [Memory.readByte_cons, if_pos rfl, Memory.readByte_cons, if_neg (by omega),
          Memory.readByte_below m' (k' + 1) k h'.2 (by omega)] at this
        exact absurd this h.1.2
      · exact he
      · have := hr k'
        rw [Memory.readByte_cons, if_neg (by omega), Memory.readByte_cons, if_pos rfl,
          Memory.readByte_below m (k + 1) k' h.2 (by omega)] at this
        exact absurd this.symm h'.1.2
    subst hk
    have hb : b = b' := by
      have := hr k
      rwa [Memory.readByte_cons, if_pos rfl, Memory.readByte_cons, if_pos rfl] at this
    subst hb
    congr 1
    refine Memory.ext_of_readByte m m' (k + 1) (k + 1) h.2 h'.2 fun a => ?_
    by_cases ha : k = a
    · rw [Memory.readByte_below m (k + 1) a h.2 (by omega), Memory.readByte_below m' (k + 1) a h'.2 (by omega)]
    · have := hr a
      rwa [Memory.readByte_cons, if_neg ha, Memory.readByte_cons, if_neg ha] at this

/-! ### Words -/

/-- A byte read after a word was written: one of the two bytes of the word, or as before. -/
theorem Memory.readByte_writeWord (m : Memory) (n : Nat) (v : Word) (x : Nat) (h : Memory.wf m = true)
    (hn : n < Config.memWords) :
    Memory.readByte (Memory.writeWord m n v) x =
      if x = 2 * n then loByte v else if x = 2 * n + 1 then hiByte v else Memory.readByte m x := by
  simp only [Config.memWords] at hn
  have h1 := Memory.wf_writeByte m (2 * n) (loByte v) (by simp only [Config.memWords]; omega) h
  rw [Memory.writeWord, Memory.readByte_writeByte _ 0 _ _ _ h1, Memory.readByte_writeByte _ 0 _ _ _ h]
  split
  · next e => rw [if_neg (by omega), if_pos e.symm]
  · next e =>
    split
    · next e2 => rw [if_pos e2.symm]
    · next e2 => rw [if_neg (fun q => e2 q.symm), if_neg (fun q => e q.symm)]

/-- A word read after a word was written (20_memory.md R61). -/
theorem Memory.readWord_writeWord (m : Memory) (n : Nat) (v : Word) (x : Nat) (h : Memory.wf m = true)
    (hn : n < Config.memWords) :
    Memory.readWord (Memory.writeWord m n v) x = if x = n then v else Memory.readWord m x := by
  unfold Memory.readWord
  rw [Memory.readByte_writeWord m n v _ h hn, Memory.readByte_writeWord m n v _ h hn]
  by_cases e : x = n
  · subst e; simp
  · rw [if_neg (by omega), if_neg (by omega), if_neg (by omega), if_neg (by omega), if_neg e]

/-- Memory with nothing listed holds zeros (10_state.md R30). -/
@[simp] theorem Memory.readWord_nil (n : Nat) : Memory.readWord [] n = 0 := ofLoHi_zero

/-- A word read after words were placed: one of them, or as before. -/
theorem Memory.readWord_writeWords : ∀ (ws : List Word) (m : Memory) (n x : Nat), Memory.wf m = true →
    x < Config.memWords →
    Memory.readWord (Memory.writeWords m n ws) x =
      if n ≤ x then ws.getD (x - n) (Memory.readWord m x) else Memory.readWord m x
  | [], m, n, x, _, _ => by simp [Memory.writeWords]
  | w :: ws, m, n, x, h, hx => by
    unfold Memory.writeWords
    split
    · next hn =>
      rw [Memory.readWord_writeWords ws _ _ x (Memory.wf_writeWord m n w hn h) hx,
        Memory.readWord_writeWord m n w x h hn]
      rcases Nat.lt_trichotomy x n with hlt | he | hgt
      · rw [if_neg (by omega), if_neg (by omega), if_neg (by omega)]
      · subst he; rw [if_neg (by omega), if_pos rfl, if_pos (le_refl _)]; simp
      · rw [if_pos (by omega), if_neg (by omega), if_pos (by omega)]
        obtain ⟨d, hd⟩ : ∃ d, x - n = d + 1 := ⟨x - n - 1, by omega⟩
        rw [hd, show x - (n + 1) = d by omega]
        simp
    · next hn => rw [if_neg (by omega)]

/-! ### The instruction window -/

/-- The word at a place of the window (20_memory.md R60). -/
theorem Memory.window_getElem? : ∀ (m : Memory) (count n k : Nat),
    (Memory.window m n count)[k]? =
      if k < count ∧ n + k < Config.memWords then some (Memory.readWord m (n + k)) else none
  | m, 0, n, k => by simp [Memory.window]
  | m, count + 1, n, k => by
    unfold Memory.window
    split
    · next hn =>
      cases k with
      | zero => simp at hn ⊢; exact hn
      | succ k =>
        rw [List.getElem?_cons_succ, Memory.window_getElem? m count (n + 1) k]
        simp only [show n + 1 + k = n + (k + 1) by omega, Nat.add_lt_add_iff_right]
    · next hn =>
      rw [if_neg (fun h => hn (by omega))]; simp

/-- At and beyond address 32768 the window is empty (20_memory.md R60). -/
theorem Memory.window_out (m : Memory) (n count : Nat) (h : Config.memWords ≤ n) :
    Memory.window m n count = [] := by
  cases count with
  | zero => rfl
  | succ c => unfold Memory.window; rw [if_neg (by omega)]

end Sys2Proof.Machine
end

