-- ==== Sys2Proof/Laws/State.lean ====
section
/-! SUPPORT. One lemma per field per update of State, true by rfl, so that no proof unfolds a record update; and the
registers as read after each update. -/

namespace Sys2Proof.Machine

/-! ### setPc -/

@[simp] theorem State.setPc_pc (s : State) (v : Word) : (s.setPc v).pc = v := rfl
@[simp] theorem State.setPc_regs (s : State) (v : Word) : (s.setPc v).regs = s.regs := rfl
@[simp] theorem State.setPc_mem (s : State) (v : Word) : (s.setPc v).mem = s.mem := rfl
@[simp] theorem State.setPc_stack (s : State) (v : Word) : (s.setPc v).stack = s.stack := rfl
@[simp] theorem State.setPc_status (s : State) (v : Word) : (s.setPc v).status = s.status := rfl
@[simp] theorem State.setPc_outTrace (s : State) (v : Word) : (s.setPc v).outTrace = s.outTrace := rfl
@[simp] theorem State.setPc_terminal (s : State) (v : Word) : (s.setPc v).terminal = s.terminal := rfl
@[simp] theorem State.setPc_stackLimit (s : State) (v : Word) : (s.setPc v).stackLimit = s.stackLimit := rfl
@[simp] theorem State.setPc_reg (s : State) (v : Word) (q : Reg) : (s.setPc v).reg q = s.reg q := rfl

/-! ### setStatus -/

@[simp] theorem State.setStatus_pc (s : State) (v : RunStatus) : (s.setStatus v).pc = s.pc := rfl
@[simp] theorem State.setStatus_regs (s : State) (v : RunStatus) : (s.setStatus v).regs = s.regs := rfl
@[simp] theorem State.setStatus_mem (s : State) (v : RunStatus) : (s.setStatus v).mem = s.mem := rfl
@[simp] theorem State.setStatus_stack (s : State) (v : RunStatus) : (s.setStatus v).stack = s.stack := rfl
@[simp] theorem State.setStatus_status (s : State) (v : RunStatus) : (s.setStatus v).status = v := rfl
@[simp] theorem State.setStatus_outTrace (s : State) (v : RunStatus) : (s.setStatus v).outTrace = s.outTrace := rfl
@[simp] theorem State.setStatus_terminal (s : State) (v : RunStatus) : (s.setStatus v).terminal = s.terminal := rfl
@[simp] theorem State.setStatus_stackLimit (s : State) (v : RunStatus) : (s.setStatus v).stackLimit = s.stackLimit := rfl
@[simp] theorem State.setStatus_reg (s : State) (v : RunStatus) (q : Reg) : (s.setStatus v).reg q = s.reg q := rfl

/-! ### setMem -/

@[simp] theorem State.setMem_pc (s : State) (v : Memory) : (s.setMem v).pc = s.pc := rfl
@[simp] theorem State.setMem_regs (s : State) (v : Memory) : (s.setMem v).regs = s.regs := rfl
@[simp] theorem State.setMem_mem (s : State) (v : Memory) : (s.setMem v).mem = v := rfl
@[simp] theorem State.setMem_stack (s : State) (v : Memory) : (s.setMem v).stack = s.stack := rfl
@[simp] theorem State.setMem_status (s : State) (v : Memory) : (s.setMem v).status = s.status := rfl
@[simp] theorem State.setMem_outTrace (s : State) (v : Memory) : (s.setMem v).outTrace = s.outTrace := rfl
@[simp] theorem State.setMem_terminal (s : State) (v : Memory) : (s.setMem v).terminal = s.terminal := rfl
@[simp] theorem State.setMem_stackLimit (s : State) (v : Memory) : (s.setMem v).stackLimit = s.stackLimit := rfl
@[simp] theorem State.setMem_reg (s : State) (v : Memory) (q : Reg) : (s.setMem v).reg q = s.reg q := rfl

/-! ### setStack -/

@[simp] theorem State.setStack_pc (s : State) (v : List Word) : (s.setStack v).pc = s.pc := rfl
@[simp] theorem State.setStack_regs (s : State) (v : List Word) : (s.setStack v).regs = s.regs := rfl
@[simp] theorem State.setStack_mem (s : State) (v : List Word) : (s.setStack v).mem = s.mem := rfl
@[simp] theorem State.setStack_stack (s : State) (v : List Word) : (s.setStack v).stack = v := rfl
@[simp] theorem State.setStack_status (s : State) (v : List Word) : (s.setStack v).status = s.status := rfl
@[simp] theorem State.setStack_outTrace (s : State) (v : List Word) : (s.setStack v).outTrace = s.outTrace := rfl
@[simp] theorem State.setStack_terminal (s : State) (v : List Word) : (s.setStack v).terminal = s.terminal := rfl
@[simp] theorem State.setStack_stackLimit (s : State) (v : List Word) : (s.setStack v).stackLimit = s.stackLimit := rfl
@[simp] theorem State.setStack_reg (s : State) (v : List Word) (q : Reg) : (s.setStack v).reg q = s.reg q := rfl

/-! ### setTerminal -/

@[simp] theorem State.setTerminal_pc (s : State) (v : Terminal) : (s.setTerminal v).pc = s.pc := rfl
@[simp] theorem State.setTerminal_regs (s : State) (v : Terminal) : (s.setTerminal v).regs = s.regs := rfl
@[simp] theorem State.setTerminal_mem (s : State) (v : Terminal) : (s.setTerminal v).mem = s.mem := rfl
@[simp] theorem State.setTerminal_stack (s : State) (v : Terminal) : (s.setTerminal v).stack = s.stack := rfl
@[simp] theorem State.setTerminal_status (s : State) (v : Terminal) : (s.setTerminal v).status = s.status := rfl
@[simp] theorem State.setTerminal_outTrace (s : State) (v : Terminal) : (s.setTerminal v).outTrace = s.outTrace := rfl
@[simp] theorem State.setTerminal_terminal (s : State) (v : Terminal) : (s.setTerminal v).terminal = v := rfl
@[simp] theorem State.setTerminal_stackLimit (s : State) (v : Terminal) : (s.setTerminal v).stackLimit = s.stackLimit := rfl
@[simp] theorem State.setTerminal_reg (s : State) (v : Terminal) (q : Reg) : (s.setTerminal v).reg q = s.reg q := rfl

/-! ### setOutTrace -/

@[simp] theorem State.setOutTrace_pc (s : State) (v : List Word) : (s.setOutTrace v).pc = s.pc := rfl
@[simp] theorem State.setOutTrace_regs (s : State) (v : List Word) : (s.setOutTrace v).regs = s.regs := rfl
@[simp] theorem State.setOutTrace_mem (s : State) (v : List Word) : (s.setOutTrace v).mem = s.mem := rfl
@[simp] theorem State.setOutTrace_stack (s : State) (v : List Word) : (s.setOutTrace v).stack = s.stack := rfl
@[simp] theorem State.setOutTrace_status (s : State) (v : List Word) : (s.setOutTrace v).status = s.status := rfl
@[simp] theorem State.setOutTrace_outTrace (s : State) (v : List Word) : (s.setOutTrace v).outTrace = v := rfl
@[simp] theorem State.setOutTrace_terminal (s : State) (v : List Word) : (s.setOutTrace v).terminal = s.terminal := rfl
@[simp] theorem State.setOutTrace_stackLimit (s : State) (v : List Word) : (s.setOutTrace v).stackLimit = s.stackLimit := rfl
@[simp] theorem State.setOutTrace_reg (s : State) (v : List Word) (q : Reg) : (s.setOutTrace v).reg q = s.reg q := rfl

/-! ### setReg -/

@[simp] theorem State.setReg_pc (s : State) (r : Reg) (v : Word) : (s.setReg r v).pc = s.pc := rfl
@[simp] theorem State.setReg_regs (s : State) (r : Reg) (v : Word) : (s.setReg r v).regs = s.regs.set r.val v := rfl
@[simp] theorem State.setReg_mem (s : State) (r : Reg) (v : Word) : (s.setReg r v).mem = s.mem := rfl
@[simp] theorem State.setReg_stack (s : State) (r : Reg) (v : Word) : (s.setReg r v).stack = s.stack := rfl
@[simp] theorem State.setReg_status (s : State) (r : Reg) (v : Word) : (s.setReg r v).status = s.status := rfl
@[simp] theorem State.setReg_outTrace (s : State) (r : Reg) (v : Word) : (s.setReg r v).outTrace = s.outTrace := rfl
@[simp] theorem State.setReg_terminal (s : State) (r : Reg) (v : Word) : (s.setReg r v).terminal = s.terminal := rfl
@[simp] theorem State.setReg_stackLimit (s : State) (r : Reg) (v : Word) : (s.setReg r v).stackLimit = s.stackLimit := rfl

/-- Reading a register after writing one (00_scope.md R8). -/
@[simp] theorem State.setReg_reg (s : State) (r : Reg) (v : Word) (q : Reg) :
    (s.setReg r v).reg q = if r = q then v else s.reg q := by
  simp [State.reg, State.setReg, Vector.getElem_set, Fin.ext_iff]

/-! ### advance and pushed, which are made of the updates above -/

@[simp] theorem State.advance_pc (s : State) (n : Nat) : (s.advance n).pc = s.pcPlus n := rfl
@[simp] theorem State.advance_regs (s : State) (n : Nat) : (s.advance n).regs = s.regs := rfl
@[simp] theorem State.advance_mem (s : State) (n : Nat) : (s.advance n).mem = s.mem := rfl
@[simp] theorem State.advance_stack (s : State) (n : Nat) : (s.advance n).stack = s.stack := rfl
@[simp] theorem State.advance_status (s : State) (n : Nat) : (s.advance n).status = s.status := rfl
@[simp] theorem State.advance_outTrace (s : State) (n : Nat) : (s.advance n).outTrace = s.outTrace := rfl
@[simp] theorem State.advance_terminal (s : State) (n : Nat) : (s.advance n).terminal = s.terminal := rfl
@[simp] theorem State.advance_stackLimit (s : State) (n : Nat) : (s.advance n).stackLimit = s.stackLimit := rfl
@[simp] theorem State.advance_reg (s : State) (n : Nat) (q : Reg) : (s.advance n).reg q = s.reg q := rfl

@[simp] theorem State.pushed_pc (s : State) (v : Word) : (s.pushed v).pc = s.pc := rfl
@[simp] theorem State.pushed_regs (s : State) (v : Word) : (s.pushed v).regs = s.regs := rfl
@[simp] theorem State.pushed_mem (s : State) (v : Word) : (s.pushed v).mem = s.mem := rfl
@[simp] theorem State.pushed_stack (s : State) (v : Word) : (s.pushed v).stack = s.stack ++ [v] := rfl
@[simp] theorem State.pushed_status (s : State) (v : Word) : (s.pushed v).status = s.status := rfl
@[simp] theorem State.pushed_outTrace (s : State) (v : Word) : (s.pushed v).outTrace = s.outTrace := rfl
@[simp] theorem State.pushed_terminal (s : State) (v : Word) : (s.pushed v).terminal = s.terminal := rfl
@[simp] theorem State.pushed_stackLimit (s : State) (v : Word) : (s.pushed v).stackLimit = s.stackLimit := rfl
@[simp] theorem State.pushed_reg (s : State) (v : Word) (q : Reg) : (s.pushed v).reg q = s.reg q := rfl

/-- Replacing the terminal by itself changes nothing. -/
@[simp] theorem State.setTerminal_self (s : State) : s.setTerminal s.terminal = s := rfl

end Sys2Proof.Machine
end

