-- ==== Sys2Proof/Laws/Ops.lean ====
section
/-! SUPPORT. For each shared operation, everything it can do. -/

namespace Sys2Proof.Machine

/-! ### assign -/

@[simp] theorem resolve_lit (s : State) (v : Word) : resolve s (.lit v) = v := rfl
@[simp] theorem resolve_reg (s : State) (r : Reg) : resolve s (.reg r) = s.reg r := rfl

@[simp] theorem assign_lit (s : State) (w v : Word) : assign s (.lit w) v = s := rfl
@[simp] theorem assign_toReg (s : State) (r : Reg) (v : Word) : assign s (.reg r) v = s.setReg r v := rfl

@[simp] theorem assign_pc (s : State) (a : Operand) (v : Word) : (assign s a v).pc = s.pc := by cases a <;> rfl
@[simp] theorem assign_mem (s : State) (a : Operand) (v : Word) : (assign s a v).mem = s.mem := by cases a <;> rfl
@[simp] theorem assign_stack (s : State) (a : Operand) (v : Word) : (assign s a v).stack = s.stack := by
  cases a <;> rfl
@[simp] theorem assign_status (s : State) (a : Operand) (v : Word) : (assign s a v).status = s.status := by
  cases a <;> rfl
@[simp] theorem assign_outTrace (s : State) (a : Operand) (v : Word) : (assign s a v).outTrace = s.outTrace := by
  cases a <;> rfl
@[simp] theorem assign_terminal (s : State) (a : Operand) (v : Word) : (assign s a v).terminal = s.terminal := by
  cases a <;> rfl
@[simp] theorem assign_stackLimit (s : State) (a : Operand) (v : Word) :
    (assign s a v).stackLimit = s.stackLimit := by cases a <;> rfl

/-- A register after a write through a destination (30_encoding.md R87). -/
@[simp] theorem assign_reg (s : State) (a : Operand) (v : Word) (q : Reg) :
    (assign s a v).reg q = if a = .reg q then v else s.reg q := by
  cases a <;> simp

@[simp] theorem assign_pcPlus (s : State) (a : Operand) (v : Word) (n : Nat) :
    (assign s a v).pcPlus n = s.pcPlus n := by simp [State.pcPlus]

/-- What `assignThenNext` answers. -/
theorem assignThenNext_next (a : Operand) (v : Word) (n : Nat) (s t : State) :
    assignThenNext a v n s = .next t ↔ t = (assign s a v).advance n := by
  simp [assignThenNext, eq_comm]

/-! ### Faults -/

/-- What `raise` answers: the status alone changes (60_exceptions.md R304). -/
theorem raise_next (c : FaultCause) (addr : Word) (w : Option Word) (s t : State) :
    raise c addr w s = .next t ↔
      t = s.setStatus (.faulted { cause := c, pc := s.pc, addr := addr, word := w }) := by
  simp [raise, eq_comm]

/-- What a refused decode answers: one record, and the status alone changes. -/
theorem decodeFault_eq (e : DecodeError) (s : State) :
    ∃ r : FaultRecord, r.pc = s.pc ∧ decodeFault e s = .next (s.setStatus (.faulted r)) := by
  cases e <;> exact ⟨_, rfl, rfl⟩

/-! ### Memory access -/

theorem memRead_eq_some (s : State) (addr v : Word) :
    memRead s addr = some v ↔ addr.toNat < 32768 ∧ v = Memory.readWord s.mem addr.toNat := by
  unfold memRead
  split <;> simp_all [eq_comm]

theorem memRead_eq_none (s : State) (addr : Word) : memRead s addr = none ↔ 32768 ≤ addr.toNat := by
  unfold memRead
  split <;> simp_all

theorem memWrite_eq_some (s : State) (addr v : Word) (t : State) :
    memWrite s addr v = some t ↔
      addr.toNat < 32768 ∧ t = s.setMem (Memory.writeWord s.mem addr.toNat v) := by
  unfold memWrite
  split <;> simp_all [eq_comm]

theorem memWrite_eq_none (s : State) (addr v : Word) : memWrite s addr v = none ↔ 32768 ≤ addr.toNat := by
  unfold memWrite
  split <;> simp_all

/-! ### The operand stack -/

theorem stackFull_iff (s : State) : s.stackFull = true ↔ s.stackLimit = some s.stack.length := by
  unfold State.stackFull
  cases h : s.stackLimit with
  | none => simp
  | some n => simp [eq_comm]

/-- The two outcomes of `pushThenGo` (10_state.md R27). -/
theorem pushThenGo_eq (opcode v target : Word) (s : State) :
    (s.stackFull = true ∧ pushThenGo opcode v target s = raise .stackOverflow s.pc (some opcode) s) ∨
      (s.stackFull = false ∧ pushThenGo opcode v target s = .next ((s.pushed v).setPc target)) := by
  unfold pushThenGo
  cases h : s.stackFull <;> simp

@[simp] theorem popped_nil (s : State) (h : s.stack = []) : s.popped = none := by simp [State.popped, h]

@[simp] theorem popped_append (s : State) (l : List Word) (v : Word) (h : s.stack = l ++ [v]) :
    s.popped = some (v, s.setStack l) := by simp [State.popped, h]

theorem popped_eq_none (s : State) : s.popped = none ↔ s.stack = [] := by
  unfold State.popped
  cases h : s.stack.getLast? with
  | none => simpa using h
  | some v => simp only [reduceCtorEq, false_iff]; intro h'; simp [h'] at h

theorem popped_eq_some (s : State) (v : Word) (t : State) :
    s.popped = some (v, t) ↔ ∃ l, s.stack = l ++ [v] ∧ t = s.setStack l := by
  constructor
  · intro h
    rcases List.eq_nil_or_concat s.stack with hs | ⟨l, w, hs⟩
    · rw [popped_nil s hs] at h; cases h
    · rw [List.concat_eq_append] at hs
      rw [popped_append s l w hs] at h
      cases h
      exact ⟨l, hs, rfl⟩
  · rintro ⟨l, hs, rfl⟩
    exact popped_append s l v hs

/-! ### The terminal -/

/-- Reading a buffered character (60_exceptions.md R331). -/
theorem read_buffered (t : Terminal) (c : Char) (rest : List Char) (h : t.inBuf = c :: rest) :
    t.read = (some c, { t with inBuf := rest }) := by
  simp [Terminal.read, Terminal.popChar, h]

/-- Reading with nothing buffered and nothing to pull (60_exceptions.md R333). -/
theorem read_exhausted (t : Terminal) (hb : t.inBuf = []) (hl : t.source.lines = []) : t.read = (none, t) := by
  cases hm : t.mode <;> simp [Terminal.read, hb, hl, hm]

/-- Reading with nothing buffered in debug mode. -/
theorem read_debug (t : Terminal) (hb : t.inBuf = []) (hm : t.mode = .debug) : t.read = (none, t) := by
  simp [Terminal.read, hb, hm]

/-- Reading that pulls a line (60_exceptions.md R331, R334). -/
theorem read_pull (t : Terminal) (line : List Char) (rest : List (List Char)) (hb : t.inBuf = [])
    (hm : t.mode = .normal) (hl : t.source.lines = line :: rest) : t.read = t.takeLine line := by
  simp [Terminal.read, hb, hm, hl]

/-- A read leaves the accumulator and the escape marker as they are. -/
theorem read_frame (t : Terminal) :
    t.read.2.outAccum = t.outAccum ∧ t.read.2.escapeMarker = t.escapeMarker := by
  unfold Terminal.read
  split
  · unfold Terminal.popChar; split <;> exact ⟨rfl, rfl⟩
  · exact ⟨rfl, rfl⟩
  · exact ⟨rfl, rfl⟩
  · unfold Terminal.takeLine Terminal.popChar Terminal.dropLine
    split
    · exact ⟨rfl, rfl⟩
    · split <;> exact ⟨rfl, rfl⟩

/-- A read that gives no character leaves the buffer empty, as it was. -/
theorem read_none_buffer (t : Terminal) (h : t.read.1 = none) : t.inBuf = [] := by
  cases hb : t.inBuf with
  | nil => rfl
  | cons c cs => rw [read_buffered t c cs hb] at h; cases h

@[simp] theorem outWrite_outTrace (s : State) (v : Word) : (outWrite s v).outTrace = s.outTrace ++ [v] := rfl
@[simp] theorem outWrite_terminal (s : State) (v : Word) : (outWrite s v).terminal = s.terminal.write v := rfl
@[simp] theorem outWrite_pc (s : State) (v : Word) : (outWrite s v).pc = s.pc := rfl
@[simp] theorem outWrite_mem (s : State) (v : Word) : (outWrite s v).mem = s.mem := rfl
@[simp] theorem outWrite_stack (s : State) (v : Word) : (outWrite s v).stack = s.stack := rfl
@[simp] theorem outWrite_status (s : State) (v : Word) : (outWrite s v).status = s.status := rfl
@[simp] theorem outWrite_stackLimit (s : State) (v : Word) : (outWrite s v).stackLimit = s.stackLimit := rfl
@[simp] theorem outWrite_reg (s : State) (v : Word) (r : Reg) : (outWrite s v).reg r = s.reg r := rfl

/-- The two outcomes of `in` (47_io.md R252). -/
theorem execIn_eq (a : Operand) (s : State) :
    (s.terminal.read.1 = none ∧ execIn a s = .next (s.setTerminal s.terminal.read.2)) ∨
      ∃ c, s.terminal.read.1 = some c ∧
        execIn a s = assignThenNext a (charCode c) 2 (s.setTerminal s.terminal.read.2) := by
  unfold execIn inRead inWithAnswer
  cases h : s.terminal.read.1 with
  | none => exact .inl ⟨rfl, rfl⟩
  | some c => exact .inr ⟨c, rfl, rfl⟩

/-! ### Step -/

/-- A step of a running core whose fetch decodes (40_execution_loop.md R121, R122). -/
theorem step_of_fetch (s : State) (i : Instr) (hs : s.status = .running) (hf : fetch s = .ok i) :
    step s = exec i s := by simp [step, hs, hf]

/-- A step of a running core whose fetch faults (40_execution_loop.md R121). -/
theorem step_of_fetch_error (s : State) (e : DecodeError) (hs : s.status = .running) (hf : fetch s = .error e) :
    step s = decodeFault e s := by simp [step, hs, hf]

/-- Fetching from the decode of the instruction window. -/
theorem fetch_of_decode (s : State) (i : Instr) (rest : List Word)
    (h : decodeWords (Memory.window s.mem s.pc.toNat 4) = .ok (i, rest)) : fetch s = .ok i := by
  simp [fetch, Config.maxInstrWords, h]

end Sys2Proof.Machine
end

