-- ==== Sys2Proof/Laws/Exec.lean ====
section
/-! SUPPORT. What `exec` and `step` can do, said once: every later proof cites these instead of unfolding the
meanings. -/

namespace Sys2Proof.Machine

open Sys2Proof.Safety

/-- The instruction took its execute-time fault: the status alone changed, to the record of 60_exceptions.md R302. -/
def TakesFault (i : Instr) (s t : State) : Prop :=
  ∃ r : FaultRecord, t = s.setStatus (.faulted r) ∧ ExecuteFaults i s ∧ r.pc = s.pc ∧
    (r.cause = .memoryOutOfRange ∧ 32768 ≤ r.addr.toNat ∧ r.word = none ∨
      (r.cause = .stackUnderflow ∨ r.cause = .modByZero ∨ r.cause = .stackOverflow) ∧ r.addr = s.pc ∧
        r.word = some (BitVec.ofNat 16 i.opcode))

/-- The instruction is one that halts. -/
def IsHalting (i : Instr) (s : State) : Prop := i = .halt ∨ i = .ret ∧ s.stack = []

/-- What an instruction does to the stack. -/
def StackEffect (i : Instr) (s t : State) : Prop :=
  (∀ a, i ≠ .push a) ∧ (∀ a, i ≠ .pop a) ∧ (∀ a, i ≠ .call a) ∧ i ≠ .ret ∧ t.stack = s.stack ∨
    (∃ a, i = .push a ∧ t.stack = s.stack ++ [resolve s a]) ∨
    (∃ a, i = .call a ∧ t.stack = s.stack ++ [s.pc + 2]) ∨
    (((∃ a, i = .pop a) ∨ i = .ret) ∧ ∃ v, s.stack = t.stack ++ [v])

/-- What an instruction does to the trace and the terminal. -/
def PortEffect (i : Instr) (s t : State) : Prop :=
  (∀ a, i ≠ .out a) ∧ (∀ a, i ≠ .inp a) ∧ t.outTrace = s.outTrace ∧ t.terminal = s.terminal ∨
    (∃ a, i = .out a ∧ t.outTrace = s.outTrace ++ [resolve s a] ∧ t.terminal = s.terminal.write (resolve s a)) ∨
    (∃ a, i = .inp a ∧ t.outTrace = s.outTrace ∧ t.terminal = s.terminal.read.2)

/-- What an instruction does to memory. -/
def MemEffect (i : Instr) (s t : State) : Prop :=
  t.mem = s.mem ∨ ∃ a b, i = .wmem a b ∧ (resolve s a).toNat < 32768 ∧
    t.mem = Memory.writeWord s.mem (resolve s a).toNat (resolve s b)

/-- The instruction completed and the core runs on. -/
def Completes (i : Instr) (s t : State) : Prop :=
  ¬ IsHalting i s ∧ t.status = s.status ∧ t.stackLimit = s.stackLimit ∧ t.pc = pcTable i s ∧
    (∀ r, i.dest ≠ some (.reg r) → t.reg r = s.reg r) ∧ MemEffect i s t ∧ StackEffect i s t ∧ PortEffect i s t

theorem completes_assign (i : Instr) (a : Operand) (v : Word) (n : Nat) (s : State) (hd : i.dest = some a)
    (hp : s.pcPlus n = pcTable i s) (hh : ¬ IsHalting i s)
    (hs : StackEffect i s s) (ho : PortEffect i s s) : Completes i s ((assign s a v).advance n) := by
  refine ⟨hh, by simp, by simp, by simpa using hp, ?_, .inl (by simp), by simpa [StackEffect] using hs,
    by simpa [PortEffect] using ho⟩
  intro r hr
  rw [hd] at hr
  simp only [State.advance_reg, assign_reg]
  rw [if_neg fun h => hr (by rw [h])]

/-- Everything `exec` can do. -/
theorem exec_cases (i : Instr) (s t : State) (h : exec i s = .next t) :
    TakesFault i s t ∨ ¬ ExecuteFaults i s ∧ (IsHalting i s ∧ t = s.setStatus .halted ∨ Completes i s t) := by
  have plain : ∀ (a : Operand) (v : Word) (n : Nat), assignThenNext a v n s = .next t → i.dest = some a →
      s.pcPlus n = pcTable i s → ¬ ExecuteFaults i s → ¬ IsHalting i s → StackEffect i s s → PortEffect i s s →
      TakesFault i s t ∨ ¬ ExecuteFaults i s ∧ (IsHalting i s ∧ t = s.setStatus .halted ∨ Completes i s t) := by
    intro a v n ht hd hp hf hh hs ho
    rw [(assignThenNext_next a v n s t).1 ht]
    exact .inr ⟨hf, .inr (completes_assign i a v n s hd hp hh hs ho)⟩
  cases i with
  | halt => cases h; exact .inr ⟨by simp [ExecuteFaults], .inl ⟨.inl rfl, rfl⟩⟩
  | noop =>
    cases h
    exact .inr ⟨by simp [ExecuteFaults], .inr (by
      simp [Completes, IsHalting, StackEffect, PortEffect, MemEffect, Instr.dest, pcTable, State.pcPlus])⟩
  | set a b =>
    exact plain _ _ _ h rfl rfl (by simp [ExecuteFaults]) (by simp [IsHalting]) (.inl (by simp)) (.inl (by simp))
  | eq a b c =>
    exact plain _ _ _ h rfl rfl (by simp [ExecuteFaults]) (by simp [IsHalting]) (.inl (by simp)) (.inl (by simp))
  | gt a b c =>
    exact plain _ _ _ h rfl rfl (by simp [ExecuteFaults]) (by simp [IsHalting]) (.inl (by simp)) (.inl (by simp))
  | add a b c =>
    exact plain _ _ _ h rfl rfl (by simp [ExecuteFaults]) (by simp [IsHalting]) (.inl (by simp)) (.inl (by simp))
  | mult a b c =>
    exact plain _ _ _ h rfl rfl (by simp [ExecuteFaults]) (by simp [IsHalting]) (.inl (by simp)) (.inl (by simp))
  | and a b c =>
    exact plain _ _ _ h rfl rfl (by simp [ExecuteFaults]) (by simp [IsHalting]) (.inl (by simp)) (.inl (by simp))
  | or a b c =>
    exact plain _ _ _ h rfl rfl (by simp [ExecuteFaults]) (by simp [IsHalting]) (.inl (by simp)) (.inl (by simp))
  | not a b =>
    exact plain _ _ _ h rfl rfl (by simp [ExecuteFaults]) (by simp [IsHalting]) (.inl (by simp)) (.inl (by simp))
  | mod a b c =>
    simp only [exec, execMod] at h
    split at h
    · next hc => rw [raise_next] at h; exact .inl ⟨_, h, hc, rfl, .inr ⟨by simp, rfl, rfl⟩⟩
    · next hc =>
      exact plain _ _ _ h rfl rfl (by simpa [ExecuteFaults] using hc) (by simp [IsHalting]) (.inl (by simp))
        (.inl (by simp))
  | rmem a b =>
    simp only [exec, execRmem] at h
    split at h
    · next hc =>
      rw [raise_next] at h
      exact .inl ⟨_, h, (memRead_eq_none _ _).1 hc, rfl, .inl ⟨rfl, (memRead_eq_none _ _).1 hc, rfl⟩⟩
    · next v hc =>
      have hlt := ((memRead_eq_some _ _ _).1 hc).1
      exact plain _ _ _ h rfl rfl (by simp only [ExecuteFaults]; omega) (by simp [IsHalting]) (.inl (by simp))
        (.inl (by simp))
  | wmem a b =>
    simp only [exec, execWmem] at h
    split at h
    · next hc =>
      rw [raise_next] at h
      exact .inl ⟨_, h, (memWrite_eq_none _ _ _).1 hc, rfl, .inl ⟨rfl, (memWrite_eq_none _ _ _).1 hc, rfl⟩⟩
    · next u hc =>
      obtain ⟨h1, rfl⟩ := (memWrite_eq_some _ _ _ _).1 hc
      cases h
      refine .inr ⟨by simp only [ExecuteFaults]; omega, .inr ?_⟩
      simp [Completes, IsHalting, StackEffect, PortEffect, MemEffect, Instr.dest, pcTable, State.pcPlus, h1]
  | jmp a =>
    cases h
    exact .inr ⟨by simp [ExecuteFaults], .inr (by
      simp [Completes, IsHalting, StackEffect, PortEffect, MemEffect, Instr.dest, pcTable])⟩
  | jt a b =>
    cases h
    refine .inr ⟨by simp [ExecuteFaults], .inr ?_⟩
    by_cases hz : resolve s a = 0#16 <;>
      simp [Completes, IsHalting, StackEffect, PortEffect, MemEffect, Instr.dest, pcTable, State.pcPlus, isNonZero, hz]
  | jf a b =>
    cases h
    refine .inr ⟨by simp [ExecuteFaults], .inr ?_⟩
    by_cases hz : resolve s a = 0#16 <;>
      simp [Completes, IsHalting, StackEffect, PortEffect, MemEffect, Instr.dest, pcTable, State.pcPlus, isNonZero, hz]
  | push a =>
    rcases pushThenGo_eq 2 (resolve s a) (s.pcPlus 2) s with ⟨hf, he⟩ | ⟨hf, he⟩
    · simp only [exec, execPush, he, raise_next] at h
      exact .inl ⟨_, h, (stackFull_iff s).1 hf, rfl, .inr ⟨by simp, rfl, rfl⟩⟩
    · simp only [exec, execPush, he] at h
      cases h
      refine .inr ⟨by rw [ExecuteFaults, ← stackFull_iff]; simp [hf], .inr ?_⟩
      simp [Completes, IsHalting, StackEffect, PortEffect, MemEffect, Instr.dest, pcTable, State.pcPlus]
  | call a =>
    rcases pushThenGo_eq 17 (s.pcPlus 2) (resolve s a) s with ⟨hf, he⟩ | ⟨hf, he⟩
    · simp only [exec, execCall, he, raise_next] at h
      exact .inl ⟨_, h, (stackFull_iff s).1 hf, rfl, .inr ⟨by simp, rfl, rfl⟩⟩
    · simp only [exec, execCall, he] at h
      cases h
      refine .inr ⟨by rw [ExecuteFaults, ← stackFull_iff]; simp [hf], .inr ?_⟩
      simp [Completes, IsHalting, StackEffect, PortEffect, MemEffect, Instr.dest, pcTable, State.pcPlus]
  | pop a =>
    simp only [exec, execPop] at h
    split at h
    · next hc =>
      rw [raise_next] at h
      exact .inl ⟨_, h, (popped_eq_none s).1 hc, rfl, .inr ⟨by simp, rfl, rfl⟩⟩
    · next v u hc =>
      obtain ⟨l, hl, rfl⟩ := (popped_eq_some _ _ _).1 hc
      rw [assignThenNext_next] at h
      subst h
      refine .inr ⟨by simp [ExecuteFaults, hl], .inr ?_⟩
      simp +contextual [Completes, IsHalting, StackEffect, PortEffect, MemEffect, Instr.dest, pcTable, State.pcPlus, hl]
  | ret =>
    simp only [exec, execRet] at h
    refine .inr ⟨by simp [ExecuteFaults], ?_⟩
    split at h
    · next hc => cases h; exact .inl ⟨.inr ⟨rfl, (popped_eq_none s).1 hc⟩, rfl⟩
    · next v u hc =>
      obtain ⟨l, hl, rfl⟩ := (popped_eq_some _ _ _).1 hc
      cases h
      exact .inr (by
        simp [Completes, IsHalting, StackEffect, PortEffect, MemEffect, Instr.dest, pcTable, hl])
  | out a =>
    cases h
    exact .inr ⟨by simp [ExecuteFaults], .inr (by
      simp [Completes, IsHalting, StackEffect, PortEffect, MemEffect, Instr.dest, pcTable, State.pcPlus])⟩
  | inp a =>
    refine .inr ⟨by simp [ExecuteFaults], .inr ?_⟩
    rcases execIn_eq a s with ⟨hn, he⟩ | ⟨c, hc, he⟩
    · simp only [exec, he] at h
      cases h
      simp [Completes, IsHalting, StackEffect, PortEffect, MemEffect, Instr.dest, pcTable, hn]
    · simp only [exec, he, assignThenNext_next] at h
      subst h
      simp +contextual [Completes, IsHalting, StackEffect, PortEffect, MemEffect, Instr.dest, pcTable, State.pcPlus, hc]

/-- Everything `step` can answer as a next state: an execution, or the fault of a refused decode. -/
theorem step_cases (s t : State) (h : step s = .next t) :
    s.status = .running ∧ ((∃ i, fetch s = .ok i ∧ exec i s = .next t) ∨
      ∃ e r, fetch s = .error e ∧ r.pc = s.pc ∧ t = s.setStatus (.faulted r)) := by
  unfold step at h
  split at h
  · next hs =>
    refine ⟨hs, ?_⟩
    split at h
    · next i hf => exact .inl ⟨i, hf, h⟩
    · next e hf =>
      obtain ⟨r, hr, he⟩ := decodeFault_eq e s
      rw [he] at h
      cases h
      exact .inr ⟨e, r, hf, hr, rfl⟩
  · cases h
  · cases h

/-! ### What the host writes -/

theorem whileRunning_eq_some (s t u : State) : whileRunning s t = some u ↔ s.status = .running ∧ u = t := by
  unfold whileRunning
  split <;> simp_all [eq_comm]

/-- Everything a host write can do. -/
theorem hostWrite_eq_some (addr v : Word) (s t : State) : hostWrite addr v s = some t ↔
    s.status = .running ∧ addr.toNat < 32768 ∧ t = s.setMem (Memory.writeWord s.mem addr.toNat v) := by
  unfold hostWrite
  cases h : memWrite s addr v with
  | none =>
    have := (memWrite_eq_none s addr v).1 h
    simp only [reduceCtorEq, false_iff]
    omega
  | some u =>
    obtain ⟨hlt, rfl⟩ := (memWrite_eq_some s addr v u).1 h
    simp only [whileRunning_eq_some, hlt, true_and]

end Sys2Proof.Machine
end

