-- ==== Sys2Proof/Laws/PerInstr.lean ====
section
/-! SUPPORT. Per-instruction families: EncodesLegally says that a well-formed instruction's encoding is as long as its
size, and that every word of it is a legal word of an image (00_scope.md R10, 70_reset_and_hazards.md R352). -/

namespace Sys2Proof.Laws

/-- The encoding has the instruction's size and only words 0..=32775. -/
def EncodesLegally.Statement (i : Instr) : Prop :=
  i.wellFormed = true → (encode i).length = i.size ∧ ∀ w ∈ encode i, w.toNat ≤ 32775

/-- The shared proof: the opcode is at most 21, and each operand's word is legal. -/
theorem encodesLegally_of (i : Instr) : EncodesLegally.Statement i := by
  intro h
  refine ⟨length_encode i, ?_⟩
  intro w hw
  rcases List.mem_cons.1 hw with rfl | hw
  · rw [Instr.toNat_opcode]
    exact Nat.le_trans i.opcode_le (by decide)
  · obtain ⟨o, ho, rfl⟩ := List.mem_map.1 hw
    exact encodeOperand_legal o (List.all_eq_true.1 h o ho)

theorem EncodesLegally.halt : EncodesLegally.Statement .halt := encodesLegally_of _
theorem EncodesLegally.set (a b : Operand) : EncodesLegally.Statement (.set a b) := encodesLegally_of _
theorem EncodesLegally.push (a : Operand) : EncodesLegally.Statement (.push a) := encodesLegally_of _
theorem EncodesLegally.pop (a : Operand) : EncodesLegally.Statement (.pop a) := encodesLegally_of _
theorem EncodesLegally.eq (a b c : Operand) : EncodesLegally.Statement (.eq a b c) := encodesLegally_of _
theorem EncodesLegally.gt (a b c : Operand) : EncodesLegally.Statement (.gt a b c) := encodesLegally_of _
theorem EncodesLegally.jmp (a : Operand) : EncodesLegally.Statement (.jmp a) := encodesLegally_of _
theorem EncodesLegally.jt (a b : Operand) : EncodesLegally.Statement (.jt a b) := encodesLegally_of _
theorem EncodesLegally.jf (a b : Operand) : EncodesLegally.Statement (.jf a b) := encodesLegally_of _
theorem EncodesLegally.add (a b c : Operand) : EncodesLegally.Statement (.add a b c) := encodesLegally_of _
theorem EncodesLegally.mult (a b c : Operand) : EncodesLegally.Statement (.mult a b c) := encodesLegally_of _
theorem EncodesLegally.mod (a b c : Operand) : EncodesLegally.Statement (.mod a b c) := encodesLegally_of _
theorem EncodesLegally.and (a b c : Operand) : EncodesLegally.Statement (.and a b c) := encodesLegally_of _
theorem EncodesLegally.or (a b c : Operand) : EncodesLegally.Statement (.or a b c) := encodesLegally_of _
theorem EncodesLegally.not (a b : Operand) : EncodesLegally.Statement (.not a b) := encodesLegally_of _
theorem EncodesLegally.rmem (a b : Operand) : EncodesLegally.Statement (.rmem a b) := encodesLegally_of _
theorem EncodesLegally.wmem (a b : Operand) : EncodesLegally.Statement (.wmem a b) := encodesLegally_of _
theorem EncodesLegally.call (a : Operand) : EncodesLegally.Statement (.call a) := encodesLegally_of _
theorem EncodesLegally.ret : EncodesLegally.Statement .ret := encodesLegally_of _
theorem EncodesLegally.out (a : Operand) : EncodesLegally.Statement (.out a) := encodesLegally_of _
theorem EncodesLegally.inp (a : Operand) : EncodesLegally.Statement (.inp a) := encodesLegally_of _
theorem EncodesLegally.noop : EncodesLegally.Statement .noop := encodesLegally_of _

end Sys2Proof.Laws
end

