-- ==== Sys2Proof/Machine/Disasm.lean ====
section
/-! DEFINITION. The assembly spelling, the disassembler's line and the decompiler's walk (30_encoding.md R95, R96,
R97). They read memory through the decoder of the executor and change nothing. -/

namespace Sys2Proof.Machine

/-- The mnemonic of 30_encoding.md R90, in lower case (R95). -/
def mnemonicText : Instr → List Char
  | .halt => ['h', 'a', 'l', 't']
  | .set _ _ => ['s', 'e', 't']
  | .push _ => ['p', 'u', 's', 'h']
  | .pop _ => ['p', 'o', 'p']
  | .eq _ _ _ => ['e', 'q']
  | .gt _ _ _ => ['g', 't']
  | .jmp _ => ['j', 'm', 'p']
  | .jt _ _ => ['j', 't']
  | .jf _ _ => ['j', 'f']
  | .add _ _ _ => ['a', 'd', 'd']
  | .mult _ _ _ => ['m', 'u', 'l', 't']
  | .mod _ _ _ => ['m', 'o', 'd']
  | .and _ _ _ => ['a', 'n', 'd']
  | .or _ _ _ => ['o', 'r']
  | .not _ _ => ['n', 'o', 't']
  | .rmem _ _ => ['r', 'm', 'e', 'm']
  | .wmem _ _ => ['w', 'm', 'e', 'm']
  | .call _ => ['c', 'a', 'l', 'l']
  | .ret => ['r', 'e', 't']
  | .out _ => ['o', 'u', 't']
  | .inp _ => ['i', 'n']
  | .noop => ['n', 'o', 'o', 'p']

/-- A number in decimal (30_encoding.md R96, D20). -/
def decimalText (n : Nat) : List Char := Nat.toDigits 10 n

/-- A literal in decimal, a register as `r<i>` (30_encoding.md R95, R96, D20). -/
def operandText : Operand → List Char
  | .lit v => decimalText v.toNat
  | .reg r => 'r' :: decimalText r.val

/-- Address, mnemonic and operands, separated by tabs (30_encoding.md R96). -/
def instrLine (addr : Nat) (i : Instr) : List Char :=
  decimalText addr ++ '\t' :: mnemonicText i ++ (i.operands.map fun o => '\t' :: operandText o).flatten

/-- The raw word at an address that does not decode (30_encoding.md R97). DESIGN CHOICE (log entry 18): it stands
after the address and a tab, in decimal. -/
def rawLine (addr : Nat) (w : Word) : List Char := decimalText addr ++ '\t' :: decimalText w.toNat

/-- At most `count` lines from an address on: an instruction and on by its size, or a raw word and on by one
(30_encoding.md R97); the debugger's `view` and `show` render so too (60_exceptions.md R340). -/
def renderFrom (m : Memory) : Nat → Nat → List (List Char)
  | 0, _ => []
  | count + 1, addr =>
    if addr < Config.memWords then
      match decodeWords (Memory.window m addr Config.maxInstrWords) with
      | .ok (i, _) => instrLine addr i :: renderFrom m count (addr + i.size)
      | .error _ => rawLine addr (Memory.readWord m addr) :: renderFrom m count (addr + 1)
    else []

/-- The decompiler: the whole memory from address 0 (30_encoding.md R97). -/
def decompile (m : Memory) : List (List Char) := renderFrom m Config.memWords 0

end Sys2Proof.Machine
end

