-- ==== Sys2Proof/Tests/Slice0.lean ====
section
/-! SUPPORT. The model's own tests: expected results are those of the spec's worked examples and vectors
(95_test_vectors.md, and the Example lines of the instruction rules), never the model's own answers; then, for every
statement with hypotheses, a witness that something meets them. -/

namespace Sys2Proof.Tests

open Sys2Proof.Machine Sys2Proof.Safety

/-! ### Helpers -/

/-- Reset, with words placed from an address on and the pointer there. -/
def startAt (pc : Nat) (ws : List Word) : State :=
  (State.reset.setPc (BitVec.ofNat 16 pc)).setMem (Memory.writeWords [] pc ws)

/-- Reset, with words placed from address 0 on. -/
def start (ws : List Word) : State := startAt 0 ws

/-- What a function of the next state gives; none where there is no next state. -/
def after {α : Type} (f : State → α) : Result → Option α
  | .next t => some (f t)
  | .fault _ => none
  | .refused _ => none

/-- A terminal with the escape marker `!`. -/
def term (buf : List Char) (lines : List (List Char)) : Terminal :=
  { Terminal.reset with inBuf := buf, source := { kind := .scripted, lines := lines, closed := false },
                        escapeMarker := ['!'] }

/-! ### WellFormed: a literal above 32767 is refused in each position (30_encoding.md R83) -/

theorem test_illFormed_first : (Instr.set (.lit 32768) (.lit 0)).wellFormed = false := by decide
theorem test_illFormed_second : (Instr.jt (.lit 0) (.lit 32768)).wellFormed = false := by decide
theorem test_illFormed_third : (Instr.add (.reg 0) (.reg 1) (.lit 65535)).wellFormed = false := by decide
theorem test_wellFormed_edge : (Instr.add (.reg 7) (.lit 32767) (.lit 0)).wellFormed = true := by decide

/-! ### Decode: every constructor, by words written out from 30_encoding.md R90 -/

/-- Format F0: 0000000000000000, 0000000000010010, 0000000000010101 (spec/opcode_table.json). -/
theorem test_decode_f0 :
    decodeWords [0b0000000000000000] = .ok (.halt, []) ∧ decodeWords [0b0000000000010010] = .ok (.ret, []) ∧
    decodeWords [0b0000000000010101] = .ok (.noop, []) := ⟨rfl, rfl, rfl⟩

/-- Format F1: 42_move_stack.md R161, R162; 44_control_transfer.md R190, R193; 47_io.md R250, R252. -/
theorem test_decode_f1 :
    decodeWords [2, 7] = .ok (.push (.lit 7), []) ∧ decodeWords [3, 32770] = .ok (.pop (.reg 2), []) ∧
    decodeWords [6, 100] = .ok (.jmp (.lit 100), []) ∧ decodeWords [17, 8] = .ok (.call (.lit 8), []) ∧
    decodeWords [19, 77] = .ok (.out (.lit 77), []) ∧ decodeWords [20, 32768] = .ok (.inp (.reg 0), []) :=
  ⟨rfl, rfl, rfl, rfl, rfl, rfl⟩

/-- Format F2: 42_move_stack.md R160; 44_control_transfer.md R191, R192; 45_arith_logic.md R215; 46_memory_access.md
R240, R241. Each pair of operands tells first from second. -/
theorem test_decode_f2 :
    decodeWords [1, 32768, 42] = .ok (.set (.reg 0) (.lit 42), []) ∧
    decodeWords [7, 32768, 50] = .ok (.jt (.reg 0) (.lit 50), []) ∧
    decodeWords [8, 32768, 50] = .ok (.jf (.reg 0) (.lit 50), []) ∧
    decodeWords [14, 32771, 32770] = .ok (.not (.reg 3) (.reg 2), []) ∧
    decodeWords [15, 32768, 100] = .ok (.rmem (.reg 0) (.lit 100), []) ∧
    decodeWords [16, 100, 32769] = .ok (.wmem (.lit 100) (.reg 1), []) := ⟨rfl, rfl, rfl, rfl, rfl, rfl⟩

/-- Format F3: 43_compare.md R180, R181; 45_arith_logic.md R210 to R214. -/
theorem test_decode_f3 :
    decodeWords [4, 32768, 32769, 5] = .ok (.eq (.reg 0) (.reg 1) (.lit 5), []) ∧
    decodeWords [5, 32770, 10, 3] = .ok (.gt (.reg 2) (.lit 10) (.lit 3), []) ∧
    decodeWords [9, 32771, 32770, 37] = .ok (.add (.reg 3) (.reg 2) (.lit 37), []) ∧
    decodeWords [10, 32768, 300, 200] = .ok (.mult (.reg 0) (.lit 300) (.lit 200), []) ∧
    decodeWords [11, 32768, 17, 5] = .ok (.mod (.reg 0) (.lit 17) (.lit 5), []) ∧
    decodeWords [12, 32768, 12, 10] = .ok (.and (.reg 0) (.lit 12) (.lit 10), []) ∧
    decodeWords [13, 32768, 12, 10] = .ok (.or (.reg 0) (.lit 12) (.lit 10), []) :=
  ⟨rfl, rfl, rfl, rfl, rfl, rfl, rfl⟩

/-- 95_test_vectors.md L1-12: 32775 is register 7, 32776 no operand. -/
theorem test_operand_edge : decodeOperand 32775 = some (.reg 7) ∧ decodeOperand 32776 = none ∧
    decodeOperand 32767 = some (.lit 32767) ∧ decodeOperand 32768 = some (.reg 0) := by decide

/-- 20_memory.md R51: the image bytes of `19, 77`, low byte first. -/
theorem test_decode_bytes : decodeBytes [0x13, 0x00, 0x4D, 0x00] = .ok (.out (.lit 77), []) := rfl

/-- The opcode table's numbering: the second word is bits 31..16. -/
theorem test_decodeTableWord : decodeTableWord 32 0x800A0013 = none ∧
    decodeTableWord 32 0x80020013 = some (.out (.reg 2)) ∧
    decodeTableWord 16 9 = some (.add (.lit 0) (.lit 0) (.lit 0)) ∧ decodeTableWord 16 22 = none := by decide

/-! ### Faults of the decode (95_test_vectors.md L2-D2 to L2-D9) -/

theorem test_fault_opcode : after State.status (step (start [22])) = some (.faulted ⟨.invalidOpcode, 0, 0, some 22⟩) := by
  decide
theorem test_fault_operand : after State.status (step (start [4, 32768, 32776, 65535])) =
    some (.faulted ⟨.invalidOperand, 0, 2, some 32776⟩) := by decide
theorem test_fault_operand_fetch : after State.status (step (startAt 32767 [9])) =
    some (.faulted ⟨.memoryOutOfRange, 32767, 32768, none⟩) := by decide
theorem test_fault_opcode_first : after State.status (step (startAt 32767 [30000])) =
    some (.faulted ⟨.invalidOpcode, 32767, 32767, some 30000⟩) := by decide
theorem test_fault_fetch : after State.status (step (startAt 40000 [])) =
    some (.faulted ⟨.memoryOutOfRange, 40000, 40000, none⟩) := by decide
theorem test_codes : FaultCause.code .invalidOpcode = 3 ∧ FaultCause.code .stackOverflow = 8 := by decide

/-! ### The instructions (95_test_vectors.md L1 and L2) -/

/-- L2-S1. -/
theorem test_halt : after (fun t => (t.status, t.pc)) (step (start [0])) = some (.halted, 0) := by decide
/-- L2-S2, L2-S3. -/
theorem test_noop : after State.pc (step (start [21, 0])) = some 1 ∧
    after State.pc (step (startAt 32767 [21])) = some 32768 := by decide
/-- L2-M1. -/
theorem test_set : after (fun t => (t.reg 0, t.pc)) (step (start [1, 32768, 42])) = some (42, 3) := by decide
/-- L2-M2, L2-D6: unmasked; a literal destination drops the write. -/
theorem test_set_unmasked : after (fun t => t.reg 0) (step ((start [1, 32768, 32769]).setReg 1 40000)) = some 40000 ∧
    after (fun t => (t.regs, t.pc)) (step (start [1, 5, 7])) = some (State.reset.regs, 3) := by decide
/-- L2-M4. -/
theorem test_push : after (fun t => (t.stack, t.pc)) (step ((start [2, 32775]).setReg 7 3)) = some ([3], 2) := by decide
/-- L2-M8. -/
theorem test_push_full : after (fun t => (t.status, t.stack))
    (step { start [2, 6] with stackLimit := some 1, stack := [5] }) =
    some (.faulted ⟨.stackOverflow, 0, 0, some 2⟩, [5]) := by decide
/-- L2-M5, L2-M7. -/
theorem test_pop : after (fun t => (t.reg 2, t.stack, t.pc)) (step ((start [3, 32770]).setStack [5, 9])) =
    some (9, [5], 2) ∧ after (fun t => (t.regs, t.stack, t.pc)) (step ((start [3, 100]).setStack [5])) =
    some (State.reset.regs, [], 2) := by decide
/-- L2-M6. -/
theorem test_pop_empty : after State.status (step (start [3, 32768])) =
    some (.faulted ⟨.stackUnderflow, 0, 0, some 3⟩) := by decide
/-- L2-C1, L2-C2: the full words are compared. -/
theorem test_eq : after (fun t => t.reg 0) (step ((start [4, 32768, 32769, 5]).setReg 1 5)) = some 1 ∧
    after (fun t => t.reg 0) (step ((start [4, 32768, 32769, 0]).setReg 1 32768)) = some 0 := by decide
/-- L2-C3, L2-C4, L2-C6: unsigned. -/
theorem test_gt : after (fun t => t.reg 0) (step (start [5, 32768, 32767, 0])) = some 1 ∧
    after (fun t => t.reg 0) (step (start [5, 32768, 3, 3])) = some 0 ∧
    after (fun t => t.reg 0) (step ((start [5, 32768, 32769, 32767]).setReg 1 65535)) = some 1 := by decide
/-- L2-J1, L2-J10. -/
theorem test_jmp : after State.pc (step (start [6, 100])) = some 100 ∧
    after State.pc (step ((start [6, 32768]).setReg 0 32768)) = some 32768 := by decide
/-- L2-J3, L2-J4. -/
theorem test_jt : after State.pc (step ((startAt 10 [7, 32768, 50]).setReg 0 65535)) = some 50 ∧
    after State.pc (step (startAt 10 [7, 32768, 50])) = some 13 := by decide
/-- L2-J5, L2-J6. -/
theorem test_jf : after State.pc (step (startAt 10 [8, 32768, 50])) = some 50 ∧
    after State.pc (step ((startAt 10 [8, 32768, 50]).setReg 0 1)) = some 13 := by decide
/-- L2-J7, L2-J11. -/
theorem test_call : after (fun t => (t.stack, t.pc)) (step (startAt 2 [17, 8])) = some ([4], 8) ∧
    after (fun t => (t.stack, t.pc)) (step (startAt 32766 [17, 100])) = some ([32768], 100) := by decide
/-- L2-J8, L2-J9: not `StackUnderflow`. -/
theorem test_ret : after (fun t => (t.pc, t.stack)) (step ((startAt 12 [18]).setStack [4])) = some (4, []) ∧
    after (fun t => (t.status, t.pc)) (step (startAt 12 [18])) = some (.halted, 12) := by decide
/-- L1-8, L2-A4: a destination that is a source reads first. -/
theorem test_add : after (fun t => (t.reg 3, t.pc)) (step ((start [9, 32771, 32770, 37]).setReg 2 40)) =
    some (77, 4) ∧ after (fun t => t.reg 0) (step ((start [9, 32768, 32768, 32768]).setReg 0 20000)) =
    some 7232 := by decide
/-- L2-A2, L2-A3: values above 32767. -/
theorem test_addWord : addWord 65535 1 = 0 ∧ addWord 65535 65535 = 32766 ∧ addWord 45 32767 = 44 := by decide
/-- L2-A5 to L2-A9. -/
theorem test_mult : after (fun t => t.reg 0) (step (start [10, 32768, 300, 200])) = some 27232 ∧
    multWord 32767 32767 = 1 ∧ multWord 65535 65535 = 1 ∧ multWord 16384 2 = 0 ∧ multWord 181 181 = 32761 := by decide
/-- L2-A10 to L2-A12, L2-A14. -/
theorem test_mod : after (fun t => t.reg 0) (step (start [11, 32768, 17, 5])) = some 2 ∧ modWord 65535 10 = 5 ∧
    modWord 40000 50000 = 40000 ∧ modWord 3 7 = 3 := by decide
/-- L2-A13. -/
theorem test_mod_zero : after (fun t => (t.status, t.reg 0)) (step ((start [11, 32768, 5, 0]).setReg 0 9)) =
    some (.faulted ⟨.modByZero, 0, 0, some 11⟩, 9) := by decide
/-- L2-A15, L2-A16. -/
theorem test_and : after (fun t => t.reg 0) (step (start [12, 32768, 12, 10])) = some 8 ∧
    after (fun t => t.reg 0) (step (((start [12, 32768, 32769, 32770]).setReg 1 65535).setReg 2 32768)) =
    some 32768 := by decide
/-- L2-A17, L2-A18. -/
theorem test_or : after (fun t => t.reg 0) (step (start [13, 32768, 12, 10])) = some 14 ∧
    after (fun t => t.reg 0) (step ((start [13, 32768, 32769, 32767]).setReg 1 32768)) = some 65535 := by decide
/-- L2-A19. -/
theorem test_not : notWord 0 = 32767 ∧ notWord 4 = 32763 ∧ notWord 32767 = 0 ∧ notWord 32768 = 32767 ∧
    notWord 65535 = 0 ∧ notWord 12345 = 20422 := by decide
/-- L1-9. -/
theorem test_not_step : after (fun t => (t.reg 3, t.pc)) (step ((start [14, 32771, 32770]).setReg 2 4)) =
    some (32763, 3) := by decide
/-- L2-R1, L2-R7. -/
theorem test_rmem : after (fun t => (t.reg 0, t.pc)) (exec (.rmem (.reg 0) (.lit 100)) (startAt 100 [32770])) =
    some (32770, 103) ∧ after (fun t => t.reg 0) (step (start [15, 32768, 0])) = some 15 := by decide
/-- L2-R2. -/
theorem test_rmem_out : after (fun t => (t.status, t.reg 0)) (step ((start [15, 32768, 32769]).setReg 1 40000)) =
    some (.faulted ⟨.memoryOutOfRange, 0, 40000, none⟩, 0) := by decide
/-- L2-R3, L2-R6: its own words were read before the write. -/
theorem test_wmem : after (fun t => (Memory.readWord t.mem 100, t.pc)) (step ((start [16, 100, 32769]).setReg 1 15)) =
    some (15, 3) ∧ after (fun t => (Memory.readWord t.mem 1, t.pc)) (step (start [16, 1, 99])) = some (99, 3) := by
  decide
/-- L2-R4. -/
theorem test_wmem_out : after (fun t => (t.status, t.mem == (start [16, 32768, 5]).mem))
    (step ((start [16, 32768, 5]).setReg 0 32768)) =
    some (.faulted ⟨.memoryOutOfRange, 0, 32768, none⟩, true) := by decide
/-- L2-I1, L2-I2: unchecked, and handed to the terminal. -/
theorem test_out : after (fun t => (t.outTrace, t.terminal.outAccum, t.pc)) (step (start [19, 77])) =
    some ([77], [77], 2) ∧ after State.outTrace (step ((start [19, 32768]).setReg 0 40000)) = some [40000] := by decide
/-- L2-I3, with the character pulled from the scripted line "hi" (47_io.md R252). -/
theorem test_in : after (fun t => (t.reg 0, t.pc, t.terminal.inBuf))
    (step ((start [20, 32768]).setTerminal (term [] [['h', 'i']]))) = some (104, 2, ['i', '\n']) := by decide
/-- L2-I4, L2-I5, L2-I6. -/
theorem test_in_other : step (start [20, 32768]) = .next (start [20, 32768]) ∧
    after (fun t => (t.regs, t.pc, t.terminal.inBuf)) (step ((start [20, 5]).setTerminal (term ['h'] []))) =
      some (State.reset.regs, 2, []) ∧
    after (fun t => (t.reg 0, t.pc, t.terminal.mode))
      (step ((start [20, 32768]).setTerminal (term [] [['!', 'x']]))) = some (0, 0, .debug) :=
  ⟨rfl, by decide, by decide⟩

/-! ### Load, the debugger, the disassembler -/

/-- P8 (95_test_vectors.md). -/
theorem test_load_reject : loadImage [0x09, 0x80] = .error ⟨.invalidWord, some 0, some 32777⟩ ∧
    loadImage [0x15, 0x00, 0x00] = .error ⟨.invalidImageSize, none, none⟩ := ⟨rfl, rfl⟩
/-- The commands of 60_exceptions.md R340. -/
theorem test_debugger : parseCommand ['s', 'e', 't', 'r', ' ', '7', ' ', '6', '5', '5', '3', '5'] = .setr 7 65535 ∧
    parseCommand ['s', 'e', 't', 'm', ' ', '1', '0', '0'] = .ignored ∧
    parseCommand ['s', 'e', 't', 'r', ' ', '0', ' ', '6', '5', '5', '3', '6'] = .ignored ∧
    parseCommand ['q'] = .quit ∧ debugRequest (.setr 8 1) = .nothing := by decide
/-- The line format of 30_encoding.md R96, for the example of R95. -/
theorem test_instrLine : instrLine 0 (.add (.reg 3) (.reg 2) (.lit 37)) =
    ['0', '\t', 'a', 'd', 'd', '\t', 'r', '3', '\t', 'r', '2', '\t', '3', '7'] := by decide
/-- The host's check: a word of the table, placed at reset, is the instruction the next step runs. -/
theorem test_withFetchWord : after State.outTrace (step (State.reset.withFetchWord 32 0x004D0013)) = some [77] := by
  decide

/-! ### Witnesses: something meets the hypotheses of each statement -/

/-- Reset with 32768 in register 0, for the boundary of the address range. -/
def edge : State := State.reset.setReg 0 32768

theorem witness_DecodeOfEncodeIsTheInstruction : (Instr.add (.reg 7) (.lit 32767) (.lit 0)).wellFormed = true := by
  decide
theorem witness_DecodedWordsAreTheEncoding : decodeWords [19, 32775, 5] = .ok (.out (.reg 7), [5]) := rfl
theorem witness_OperandWordClasses :
    (32767 : Word).toNat ≤ 32767 ∧ (32775 : Word).toNat = 32768 + (7 : Reg).val ∧ 32776 ≤ (32776 : Word).toNat ∧
    (32767 : Word).msb = false ∧ ((32775 : Word).msb = true ∧ (32775 : Word).extractLsb' 3 12 = 0) ∧
    ((32776 : Word).msb = true ∧ (32776 : Word).extractLsb' 3 12 ≠ 0) := by decide
theorem witness_StepRunsTheDecodedInstruction : (startAt 32767 [21]).status = .running ∧
    decodeWords (Memory.window (startAt 32767 [21]).mem (startAt 32767 [21]).pc.toNat 4) = .ok (.noop, []) :=
  ⟨rfl, rfl⟩
theorem witness_StepRunsTheInstructionInMemory :
    (startAt 32764 [9, 32771, 32770, 37]).status = .running ∧
    (Instr.add (.reg 3) (.reg 2) (.lit 37)).wellFormed = true ∧
    (startAt 32764 [9, 32771, 32770, 37]).pc.toNat + (Instr.add (.reg 3) (.reg 2) (.lit 37)).size ≤ 32768 ∧
    ∀ k, k < (Instr.add (.reg 3) (.reg 2) (.lit 37)).size → (encode (.add (.reg 3) (.reg 2) (.lit 37)))[k]? =
      some (Memory.readWord (startAt 32764 [9, 32771, 32770, 37]).mem
        ((startAt 32764 [9, 32771, 32770, 37]).pc.toNat + k)) := by
  refine ⟨rfl, by decide, by decide, ?_⟩
  decide
theorem witness_FetchedInstructionFitsInMemory : fetch (startAt 32766 [2, 7]) = .ok (.push (.lit 7)) := rfl
theorem witness_StepFollowsTheSpecsDecoder : (start [4, 32768, 32776, 65535]).status = .running ∧
    decodeAtPc (start [4, 32768, 32776, 65535]) = .error ⟨.invalidOperand, 0, 2, some 32776⟩ ∧
    decodeAtPc (start [6, 100]) = .ok (6, [.lit 100]) := ⟨rfl, rfl, rfl⟩
theorem witness_RunningCoreAnswersANextState : State.reset.status = .running := rfl
theorem witness_FinalStatusHasNoStep : (State.reset.setStatus .halted).status ≠ .running ∧
    step (State.reset.setStatus .halted) = .fault .halted := ⟨by decide, rfl⟩
theorem witness_LoadedImageStartsTheCore : ([0x07, 0x80] : List Byte).length = 2 * 1 ∧ 1 ≤ 32768 ∧
    ∀ k, k < 1 → imageWord [0x07, 0x80] k ≤ 32775 := by decide
theorem witness_BadImagesAreRejected : ([0x08, 0x80] : List Byte).length % 2 = 0 ∧
    ([0x08, 0x80] : List Byte).length ≤ 65536 ∧ 2 * 0 + 1 < ([0x08, 0x80] : List Byte).length ∧
    32775 < imageWord [0x08, 0x80] 0 ∧ ([0x15, 0, 0] : List Byte).length % 2 = 1 ∧
    ∀ k, k < 1 → imageWord [0x15, 0, 0] k ≤ 32775 := by decide
theorem witness_Invariant : Invariant (start [16, 100, 5]) ∧
    ∃ t, step (start [16, 100, 5]) = .next t ∧ Memory.readWord t.mem 100 = 5 := ⟨⟨by decide, rfl⟩, _, rfl, by decide⟩
theorem witness_HostEventsKeepTheInvariant : Invariant State.reset ∧
    hostEvent (.restore (save State.reset)) State.reset = some State.reset ∧ Memory.wf (save State.reset).mem = true ∧
    ∀ n, State.reset.stackLimit = some n → (save State.reset).stack.length ≤ n :=
  ⟨⟨rfl, rfl⟩, rfl, rfl, fun _ h => by cases h⟩
theorem witness_HaltResult : State.reset.status = .running ∧ State.reset.pc.toNat < 32768 ∧
    Memory.readWord State.reset.mem State.reset.pc.toNat = 0 := ⟨rfl, by decide, rfl⟩
/-- For the stack limit's clauses of push and call, and for `PushThenPopGivesTheValue`. -/
theorem witness_stackLimit : State.reset.stackLimit ≠ some State.reset.stack.length ∧
    ({ State.reset with stackLimit := some 1 } : State).stackLimit ≠ some State.reset.stack.length ∧
    ({ State.reset with stackLimit := some 0 } : State).stackLimit = some State.reset.stack.length := by decide
/-- For the two clauses of pop and of ret. -/
theorem witness_stack : (State.reset.setStack [5, 9]).stack = [5] ++ [9] ∧ State.reset.stack = [] := ⟨rfl, rfl⟩
theorem witness_ModResult : resolve State.reset (.lit 1) ≠ 0 ∧ resolve State.reset (.lit 0) = 0 := by decide
/-- For the two clauses of rmem and of wmem, at their boundary. -/
theorem witness_address : Memory.wf edge.mem = true ∧ (resolve edge (.lit 32767)).toNat < 32768 ∧
    32768 ≤ (resolve edge (.reg 0)).toNat := by decide
theorem witness_InResult : (term ['h'] []).read = (some 'h', term [] []) ∧ (term [] []).read = (none, term [] []) :=
  ⟨rfl, rfl⟩
/-- For the statements about every next state: a completing instruction and one that takes its fault. -/
theorem witness_exec : (∃ t, exec (.add (.reg 0) (.lit 1) (.lit 2)) State.reset = .next t ∧ t.reg 0 = 3) ∧
    (∃ t, exec (.pop (.reg 0)) State.reset = .next t ∧ ∃ r, t.status = .faulted r) ∧
    (Instr.add (.reg 0) (.lit 1) (.lit 2)).dest ≠ some (.reg 1) ∧
    ExecuteFaults (.pop (.reg 0)) State.reset ∧ ¬ ExecuteFaults (.add (.reg 0) (.lit 1) (.lit 2)) State.reset :=
  ⟨⟨_, rfl, by decide⟩, ⟨_, rfl, _, rfl⟩, by decide, rfl, fun h => h⟩
theorem witness_OnlyTheStoredWordChangesInMemory : Memory.wf State.reset.mem = true ∧
    (∃ t, exec (.wmem (.lit 32767) (.lit 5)) State.reset = .next t ∧ Memory.readWord t.mem 32767 = 5) ∧
    storeAddress (.wmem (.lit 32767) (.lit 5)) State.reset = some 32767 ∧
    storeAddress (.wmem (.reg 0) (.lit 5)) edge = none :=
  ⟨rfl, ⟨_, rfl, by decide⟩, rfl, rfl⟩
/-- For the statements about `in` and `out`, and `call`. -/
theorem witness_ports : (∃ t, exec (.out (.lit 77)) State.reset = .next t ∧ t.outTrace = [77]) ∧
    (∃ t, exec (.inp (.reg 0)) (State.reset.setTerminal (term ['h'] [])) = .next t ∧ t.terminal.inBuf = []) ∧
    (∃ t, exec (.call (.lit 8)) State.reset = .next t ∧ t.stack = [2]) :=
  ⟨⟨_, rfl, rfl⟩, ⟨_, rfl, rfl⟩, ⟨_, rfl, by decide⟩⟩
/-- For `FaultsArePrecise`: the causes not shown by the tests above are those of the load. -/
theorem witness_FaultsArePrecise : (start [3, 32768]).status = .running ∧
    ∃ t, step (start [3, 32768]) = .next t ∧ t.status = .faulted ⟨.stackUnderflow, 0, 0, some 3⟩ := ⟨rfl, _, rfl, rfl⟩
theorem witness_OnlyHaltAndEmptyRetHalt : (start [18]).status = .running ∧ fetch (start [18]) = .ok .ret ∧
    (∃ t, step (start [18]) = .next t ∧ t.status = .halted) ∧
    (∃ t, step (start [0]) = .next t ∧ t.status = .halted) := ⟨rfl, rfl, ⟨_, rfl, rfl⟩, ⟨_, rfl, rfl⟩⟩
theorem witness_StoreIsSeenByTheNextFetch : Memory.wf State.reset.mem = true ∧
    (∃ t, exec (.wmem (.lit 32767) (.lit 5)) State.reset = .next t) ∧ (∃ t, hostWrite 32767 5 State.reset = some t) ∧
    (32767 : Word).toNat = 32764 + 3 ∧ 3 < 4 ∧
    (start [16, 2, 7]).status = .running ∧ fetch (start [16, 2, 7]) = .ok (.wmem (.lit 2) (.lit 7)) :=
  ⟨rfl, ⟨_, rfl⟩, ⟨_, rfl⟩, by decide, by decide, rfl, rfl⟩
/-- For `StoreIsSeenByEveryLaterFetch`: a store to 32767, then a store to its neighbour 32766, then a patch of 0. -/
theorem witness_StoreIsSeenByEveryLaterFetch : Memory.wf (start [16, 32766, 7]).mem = true ∧
    ∃ t u, hostWrite 32767 5 (start [16, 32766, 7]) = some t ∧ ReachesWithoutStore (32767 : Word).toNat t u ∧
      Memory.readWord u.mem 32766 = 7 ∧ Memory.readWord u.mem 0 = 21 ∧
      (32767 : Word).toNat = 32764 + 3 ∧ 3 < 4 := by
  refine ⟨rfl, _, _, rfl, .host (.patch 0 21) (.step (.refl _) rfl fun i h => ?_) rfl ?_, rfl, rfl, by decide,
    by decide⟩
  · cases h
    decide
  · exact show (0 : Word).toNat ≠ (32767 : Word).toNat by decide
/-- For `StoreIsSeenByEveryLaterFetch` through `wmem`. -/
theorem witness_StoreByWmem : resolve State.reset (.lit 0) = 0 ∧ (0 : Word).toNat < 32768 ∧
    (∃ t, exec (.wmem (.lit 0) (.lit 5)) State.reset = .next t ∧ ReachesWithoutStore 0 t t) ∧
    (0 : Word).toNat = 0 + 0 := ⟨rfl, by decide, ⟨_, rfl, .refl _⟩, rfl⟩
theorem witness_NotResult : (resolve State.reset (.lit 32767)).toNat ≤ 32767 := by decide
theorem witness_BoundedResults : (resolve State.reset (.lit 1)).toNat = 1 ∧
    (resolve State.reset (.lit 32767)).toNat < 32768 ∧
    ∀ i ∈ [Instr.add (.reg 0) (.lit 1) (.lit 1), .mult (.reg 0) (.lit 1) (.lit 1), .not (.reg 0) (.lit 1),
      .eq (.reg 0) (.lit 1) (.lit 1), .gt (.reg 0) (.lit 1) (.lit 1), .mod (.reg 0) (.lit 1) (.lit 32767)],
      (after State.status (exec i State.reset)) = some .running := by decide
theorem witness_LineIsDeliveredInOrder : (term [] [['h', 'i']]).inBuf = [] ∧ (term [] [['h', 'i']]).mode = .normal ∧
    (term [] [['h', 'i']]).source.lines = ['h', 'i'] :: [] ∧
    (term [] [['h', 'i']]).isEscapeLine ['h', 'i'] = false := by decide
theorem witness_EscapeLineDeliversNothing : (term [] [['!', 'x']]).inBuf = [] ∧
    (term [] [['!', 'x']]).mode = .normal ∧ (term [] [['!', 'x']]).source.lines = ['!', 'x'] :: [] ∧
    (term [] [['!', 'x']]).escapeMarker <+: ['!', 'x'] := by decide
theorem witness_SuspendedInIsRetried : (start [20, 32768]).status = .running ∧
    fetch (start [20, 32768]) = .ok (.inp (.reg 0)) ∧ (start [20, 32768]).terminal.read.1 = none ∧
    (start [20, 32768]).terminal.inBuf = [] ∧ (start [20, 32768]).terminal.source.lines = [] :=
  ⟨rfl, rfl, rfl, rfl, rfl⟩
theorem witness_EchoReturnsTheCharacters : (State.reset.setTerminal (term ['h', 'i', '\n'] [])).terminal.inBuf =
    ['h', 'i'] ++ ['\n'] := rfl
theorem witness_DrainingDoesNotAffectTheCore : (∃ t, step (start [19, 77]) = .next t ∧ t.terminal.outAccum = [77]) ∧
    step (State.reset.setStatus .halted) = .fault .halted := ⟨⟨_, rfl, rfl⟩, rfl⟩
theorem witness_RestoredCoreContinuesAsSaved : (start [21, 0]).status = .running ∧
    (State.reset.setStatus .halted).terminal = (start [21, 0]).terminal ∧
    (State.reset.setStatus .halted).stackLimit = (start [21, 0]).stackLimit ∧
    ∃ t, Host.Core.run Sys2Proof.core 2 (start [21, 0]) = .next t ∧ t.status = .halted :=
  ⟨rfl, rfl, rfl, _, rfl, rfl⟩
theorem witness_DebuggerWritesOnlyWhatItNames : State.reset.status = .running ∧ Memory.wf State.reset.mem = true ∧
    (7 : Word).toNat = (7 : Reg).val ∧ 8 ≤ (8 : Word).toNat ∧ (32767 : Word).toNat < 32768 ∧
    32768 ≤ (32768 : Word).toNat := by decide
theorem witness_RunEndsAsItsStateShows :
    (runLoop 1 ⟨false, none, 0⟩ (start [0])).1 = .halted ∧ (runLoop 1 ⟨false, none, 0⟩ (start [21])).1 = .stopped ∧
    (runLoop 1 ⟨false, none, 0⟩ (start [22])).1 = .faulted ⟨.invalidOpcode, 0, 0, some 22⟩ ∧
    (hostEvent .closeSource (start [20, 32768])).map (fun s => (runLoop 1 ⟨false, none, 0⟩ s).1) =
      some .inputExhausted := ⟨rfl, rfl, rfl, rfl⟩

end Sys2Proof.Tests
end

section
/-! SUPPORT. The parameters of the core (00_scope.md R6) are fixed for a run: what an instruction does to the ports,
what `exec` does, and what `step` does leave the stack limit and the escape marker as they are. -/

namespace Sys2Proof.Proofs.Parameters

open Sys2Proof.Machine

@[simp] theorem write_escapeMarker (t : Terminal) (v : Word) : (t.write v).escapeMarker = t.escapeMarker := rfl

/-- Neither port touches the marker: `out` appends to the accumulator, `in` reads. -/
theorem escapeMarker_of_portEffect (i : Instr) (s t : State) (h : PortEffect i s t) :
    t.terminal.escapeMarker = s.terminal.escapeMarker := by
  obtain ⟨-, -, -, ht⟩ | ⟨a, -, -, ht⟩ | ⟨a, -, -, ht⟩ := h
  · rw [ht]
  · rw [ht, write_escapeMarker]
  · rw [ht, (read_frame s.terminal).2]

/-- A fault and a halt set the status alone; an instruction that completes keeps the limit, and keeps the marker by
its effect on the ports. -/
theorem exec_keeps_parameters (i : Instr) (s t : State) (h : exec i s = .next t) :
    t.stackLimit = s.stackLimit ∧ t.terminal.escapeMarker = s.terminal.escapeMarker := by
  obtain ⟨r, rfl, -⟩ | ⟨-, ⟨-, rfl⟩ | hc⟩ := exec_cases i s t h
  · exact ⟨rfl, rfl⟩
  · exact ⟨rfl, rfl⟩
  · obtain ⟨-, -, hlimit, -, -, -, -, hports⟩ := hc
    exact ⟨hlimit, escapeMarker_of_portEffect i s t hports⟩

/-- Settles O16: the step is an execution, or the fault of a refused decode, which sets the status alone. -/
theorem stepKeepsTheParameters : Obligations.StepKeepsTheParameters := by
  intro s t h
  obtain ⟨-, ⟨i, -, he⟩ | ⟨e, r, -, -, rfl⟩⟩ := step_cases s t h
  · exact exec_keeps_parameters i s t he
  · exact ⟨rfl, rfl⟩

end Sys2Proof.Proofs.Parameters
end

section
/-! SUPPORT. The invariant of the machine holds at reset, and every step keeps it: a fault and a halt set the status
alone, memory changes by a store inside memory, and only a push that has room makes the stack longer. -/

namespace Sys2Proof.Proofs.StepInvariant

open Sys2Proof.Machine Sys2Proof.Safety

/-- Settles O14: nothing is listed in memory at reset, and there is no stack limit. -/
theorem resetMeetsTheInvariant : Obligations.ResetMeetsTheInvariant := ⟨Memory.wf_reset, rfl⟩

/-- The invariant does not speak of the status. -/
theorem invariant_setStatus (s : State) (st : RunStatus) : Invariant (s.setStatus st) ↔ Invariant s := Iff.rfl

theorem stackWithinLimit_iff (s : State) :
    stackWithinLimit s = true ↔ ∀ n, s.stackLimit = some n → s.stack.length ≤ n := by
  unfold stackWithinLimit
  cases s.stackLimit <;> simp

/-- A store goes to an address below 32768 (20_memory.md R53). -/
theorem wf_of_memEffect (i : Instr) (s t : State) (hwf : Memory.wf s.mem = true) (h : MemEffect i s t) :
    Memory.wf t.mem = true := by
  obtain hmem | ⟨a, b, -, hlt, hmem⟩ := h
  · rwa [hmem]
  · rw [hmem]
    exact Memory.wf_writeWord _ _ _ hlt hwf

/-- An instruction that takes no fault makes the stack longer only where there is room (10_state.md R27). -/
theorem length_le_of_stackEffect (i : Instr) (s t : State) (n : Nat) (hlimit : s.stackLimit = some n)
    (hle : s.stack.length ≤ n) (hf : ¬ ExecuteFaults i s) (h : StackEffect i s t) : t.stack.length ≤ n := by
  have room : s.stackLimit ≠ some s.stack.length → s.stack.length + 1 ≤ n := by
    intro hne
    rw [hlimit, ne_eq, Option.some.injEq] at hne
    omega
  obtain ⟨-, -, -, -, hst⟩ | ⟨a, rfl, hst⟩ | ⟨a, rfl, hst⟩ | ⟨-, v, hst⟩ := h
  · rwa [hst]
  · simpa [hst] using room hf
  · simpa [hst] using room hf
  · have hlen := congrArg List.length hst
    rw [List.length_append, List.length_singleton] at hlen
    omega

theorem exec_keeps_invariant (i : Instr) (s t : State) (hinv : Invariant s) (h : exec i s = .next t) :
    Invariant t := by
  obtain ⟨r, rfl, -⟩ | ⟨hf, ⟨-, rfl⟩ | hc⟩ := exec_cases i s t h
  · exact (invariant_setStatus s _).2 hinv
  · exact (invariant_setStatus s _).2 hinv
  · obtain ⟨-, -, hlimit, -, -, hmem, hstack, -⟩ := hc
    obtain ⟨hwf, hwithin⟩ := hinv
    refine ⟨wf_of_memEffect i s t hwf hmem, (stackWithinLimit_iff t).2 fun n hn => ?_⟩
    rw [hlimit] at hn
    exact length_le_of_stackEffect i s t n hn ((stackWithinLimit_iff s).1 hwithin n hn) hf hstack

/-- Settles O15: the step is an execution, or the fault of a refused decode, which sets the status alone. -/
theorem stepKeepsTheInvariant : Obligations.StepKeepsTheInvariant := by
  intro s t hinv h
  obtain ⟨-, ⟨i, -, he⟩ | ⟨e, r, -, -, rfl⟩⟩ := step_cases s t h
  · exact exec_keeps_invariant i s t hinv he
  · exact (invariant_setStatus s _).2 hinv

end Sys2Proof.Proofs.StepInvariant
end

section
/-! SUPPORT. The converse of decoding: what decodes is well-formed and its words are its encoding (30_encoding.md R83,
R91). From it, where a fetched instruction lies. -/

namespace Sys2Proof.Proofs.Fetch

open Sys2Proof.Machine

/-- The instructions a row of the opcode map makes have the opcode `n`, and as operands those the row was given, in
order. -/
def RowMakes (n : Nat) : Row → Prop
  | .f0 i => i.opcode = n ∧ i.operands = []
  | .f1 mk => ∀ a, (mk a).opcode = n ∧ (mk a).operands = [a]
  | .f2 mk => ∀ a b, (mk a b).opcode = n ∧ (mk a b).operands = [a, b]
  | .f3 mk => ∀ a b c, (mk a b c).opcode = n ∧ (mk a b c).operands = [a, b, c]

/-- Each of the 22 rows makes the instruction of its number (30_encoding.md R90). -/
theorem rowMakes_of_opcodeRow (n : Nat) (row : Row) (h : opcodeRow n = some row) : RowMakes n row := by
  unfold opcodeRow at h
  split at h <;> cases h <;> simp [RowMakes, Instr.opcode, Instr.operands]

/-- The operands a row reads are well-formed, and the words it read are their encodings. -/
theorem decodeRow_ok (n : Nat) (row : Row) (ws rest : List Word) (i : Instr) (hrow : RowMakes n row)
    (h : decodeRow row ws = .ok (i, rest)) :
    i.opcode = n ∧ i.wellFormed = true ∧ ws = i.operands.map encodeOperand ++ rest := by
  cases row with
  | f0 j =>
    obtain ⟨hop, hos⟩ := hrow
    cases h
    simp [Instr.wellFormed, hop, hos]
  | f1 mk =>
    simp only [decodeRow] at h
    split at h
    · cases h
    · next a ws1 ha =>
      obtain ⟨rfl, hwa⟩ := operandAt_ok 1 ws a ws1 ha
      obtain ⟨hop, hos⟩ := hrow a
      cases h
      simp [Instr.wellFormed, hop, hos, hwa]
  | f2 mk =>
    simp only [decodeRow] at h
    split at h
    · cases h
    · next a ws1 ha =>
      split at h
      · cases h
      · next b ws2 hb =>
        obtain ⟨rfl, hwa⟩ := operandAt_ok 1 ws a ws1 ha
        obtain ⟨rfl, hwb⟩ := operandAt_ok 2 ws1 b ws2 hb
        obtain ⟨hop, hos⟩ := hrow a b
        cases h
        simp [Instr.wellFormed, hop, hos, hwa, hwb]
  | f3 mk =>
    simp only [decodeRow] at h
    split at h
    · cases h
    · next a ws1 ha =>
      split at h
      · cases h
      · next b ws2 hb =>
        split at h
        · cases h
        · next c ws3 hc =>
          obtain ⟨rfl, hwa⟩ := operandAt_ok 1 ws a ws1 ha
          obtain ⟨rfl, hwb⟩ := operandAt_ok 2 ws1 b ws2 hb
          obtain ⟨rfl, hwc⟩ := operandAt_ok 3 ws2 c ws3 hc
          obtain ⟨hop, hos⟩ := hrow a b c
          cases h
          simp [Instr.wellFormed, hop, hos, hwa, hwb, hwc]

/-- What decodes is well-formed, and the words it was read from are its encoding. -/
theorem decodeWords_ok (ws rest : List Word) (i : Instr) (h : decodeWords ws = .ok (i, rest)) :
    i.wellFormed = true ∧ ws = encode i ++ rest := by
  cases ws with
  | nil => cases h
  | cons op ws =>
    simp only [decodeWords] at h
    split at h
    · cases h
    · next row hrow =>
      obtain ⟨hop, hwf, rfl⟩ := decodeRow_ok _ row ws rest i (rowMakes_of_opcodeRow _ row hrow) h
      exact ⟨hwf, by simp [encode, hop]⟩

/-- Fetching decodes the instruction window at the pointer. -/
theorem fetch_ok (s : State) (i : Instr) (h : fetch s = .ok i) :
    ∃ rest, decodeWords (Memory.window s.mem s.pc.toNat Config.maxInstrWords) = .ok (i, rest) := by
  unfold fetch at h
  split at h
  · next j rest hd => cases h; exact ⟨rest, hd⟩
  · cases h

/-- The window stops before address 32768 (20_memory.md R60). -/
theorem length_window_le (m : Memory) : ∀ count n : Nat, (Memory.window m n count).length ≤ Config.memWords - n
  | 0, _ => Nat.zero_le _
  | count + 1, n => by
    have ih := length_window_le m count (n + 1)
    unfold Memory.window
    split
    · next hn => rw [List.length_cons]; omega
    · exact Nat.zero_le _

/-- An instruction has at least its opcode word (30_encoding.md R80). -/
theorem size_pos (i : Instr) : 0 < i.size := by
  unfold Instr.size
  omega

/-- The number of an address reached without leaving the 16 bits. -/
theorem toNat_pcPlus (s : State) (k : Nat) (h : s.pc.toNat + k < 65536) :
    (s.pcPlus k).toNat = s.pc.toNat + k := by
  simp only [State.pcPlus, BitVec.toNat_add, BitVec.toNat_ofNat]
  omega

/-- Settles O7: the instruction's words stand in the window, and the window lies below 32768. -/
theorem fetchedInstructionFitsInMemory : Obligations.FetchedInstructionFitsInMemory := by
  intro s i h
  obtain ⟨rest, hd⟩ := fetch_ok s i h
  obtain ⟨hwf, hwords⟩ := decodeWords_ok _ rest i hd
  have hfits : s.pc.toNat + i.size ≤ 32768 := by
    have hlen := length_window_le s.mem Config.maxInstrWords s.pc.toNat
    rw [hwords, List.length_append, length_encode] at hlen
    simp only [Config.memWords] at hlen
    have hpos := size_pos i
    omega
  exact ⟨hwf, hfits, toNat_pcPlus s i.size (by omega)⟩

end Sys2Proof.Proofs.Fetch
end

section
/-! SUPPORT. Reset and load (10_state.md R36, 70_reset_and_hazards.md R351 to R353): the words of an image, the check
of its words, and the memory it leaves. -/

namespace Sys2Proof.Proofs.Load

open Sys2Proof.Machine Sys2Proof.Safety

theorem reset_reg (r : Reg) : State.reset.reg r = 0 := by
  simp [State.reg, State.reset]

theorem readWord_reset (n : Nat) : Memory.readWord State.reset.mem n = 0 := Memory.readWord_nil n

/-- Settles O11, field by field. -/
theorem resetHoldsTheSpecsValues : Obligations.ResetHoldsTheSpecsValues :=
  ⟨rfl, reset_reg, readWord_reset, rfl, rfl, rfl, rfl, rfl, rfl, rfl⟩

/-- Two bytes of the image make a word (70_reset_and_hazards.md R351). -/
theorem length_wordsOfBytes : ∀ bytes : List Byte, (wordsOfBytes bytes).length = bytes.length / 2
  | [] => rfl
  | [_] => by simp [wordsOfBytes]
  | _ :: _ :: bytes => by
    simp only [wordsOfBytes, List.length_cons, length_wordsOfBytes bytes]
    omega

theorem imageWord_cons_cons_succ (lo hi : Byte) (bytes : List Byte) (k : Nat) :
    imageWord (lo :: hi :: bytes) (k + 1) = imageWord bytes k := by
  simp [imageWord, Nat.mul_add]

/-- The number of the word at a place of the image (70_reset_and_hazards.md R351). -/
theorem toNat_getElem_wordsOfBytes : ∀ (bytes : List Byte) (k : Nat) (hk : k < (wordsOfBytes bytes).length),
    ((wordsOfBytes bytes)[k]).toNat = imageWord bytes k
  | [], _, hk => absurd hk (Nat.not_lt_zero _)
  | [_], _, hk => absurd hk (Nat.not_lt_zero _)
  | lo :: hi :: _, 0, _ => toNat_ofLoHi lo hi
  | lo :: hi :: bytes, k + 1, hk => by
    rw [imageWord_cons_cons_succ]
    exact toNat_getElem_wordsOfBytes bytes k (Nat.lt_of_succ_lt_succ hk)

/-- No bad word is found where every word is legal (70_reset_and_hazards.md R352). -/
theorem firstIllegal_eq_none : ∀ (ws : List Word) (k : Nat), (∀ w ∈ ws, w.toNat ≤ 32775) → firstIllegal k ws = none
  | [], _, _ => rfl
  | w :: ws, k, h => by
    rw [firstIllegal, if_pos (h w List.mem_cons_self)]
    exact firstIllegal_eq_none ws (k + 1) fun v hv => h v (List.mem_cons_of_mem w hv)

/-- Reset with an image's words in memory from address 0 on. -/
def loaded (bytes : List Byte) : State :=
  State.reset.setMem (Memory.writeWords State.reset.mem 0 (wordsOfBytes bytes))

/-- An image of the right size with legal words loads (70_reset_and_hazards.md R352). -/
theorem loadImage_eq_ok (bytes : List Byte) (hsize : imageSizeOk bytes = true)
    (hlegal : ∀ w ∈ wordsOfBytes bytes, w.toNat ≤ 32775) : loadImage bytes = .ok (loaded bytes) := by
  simp only [loadImage, hsize, firstIllegal_eq_none _ 0 hlegal, if_true, loaded]

/-- Memory after a load: the image's words, and zeros after them (70_reset_and_hazards.md R353). -/
theorem readWord_loaded (bytes : List Byte) (k : Nat) (hk : k < 32768) :
    Memory.readWord (loaded bytes).mem k = (wordsOfBytes bytes).getD k 0 := by
  rw [loaded, State.setMem_mem, Memory.readWord_writeWords _ _ 0 k Memory.wf_reset hk, if_pos (Nat.zero_le k),
    Nat.sub_zero, readWord_reset]

/-- Settles O12: the load succeeds, memory holds the image's words and then zeros, and the rest is as at reset. -/
theorem loadedImageStartsTheCore : Obligations.LoadedImageStartsTheCore := by
  intro bytes n hlen hn hwords
  have hcount : (wordsOfBytes bytes).length = n := by rw [length_wordsOfBytes]; omega
  have hsize : imageSizeOk bytes = true := by
    simp only [imageSizeOk, Config.memWords, Bool.and_eq_true, decide_eq_true_eq]
    omega
  have hlegal : ∀ w ∈ wordsOfBytes bytes, w.toNat ≤ 32775 := by
    intro w hw
    obtain ⟨k, hk, rfl⟩ := List.getElem_of_mem hw
    rw [toNat_getElem_wordsOfBytes]
    exact hwords k (hcount ▸ hk)
  refine ⟨loaded bytes, loadImage_eq_ok bytes hsize hlegal, ?image, ?zeros, rfl, rfl, reset_reg, rfl, rfl, rfl, rfl⟩
  case image =>
    intro k hk
    rw [readWord_loaded bytes k (by omega), List.getD_eq_getElem _ _ (hcount.symm ▸ hk), toNat_getElem_wordsOfBytes]
  case zeros =>
    intro k hnk hk
    rw [readWord_loaded bytes k hk, List.getD_eq_default _ _ (hcount.symm ▸ hnk)]

end Sys2Proof.Proofs.Load
end

section
/-! SUPPORT. The frames of the registers and of the stack over all instructions, and which steps halt: each is read
off what `exec` and `step` can do. -/

namespace Sys2Proof.Proofs.Frames

open Sys2Proof.Machine Sys2Proof.Safety

/-- Settles O40: a fault and a halt set the status alone, and a completed instruction writes through its destination. -/
theorem onlyTheDestinationRegisterChanges : Obligations.OnlyTheDestinationRegisterChanges := by
  intro i s t h r hr
  obtain ⟨rec, rfl, -⟩ | ⟨-, ⟨-, rfl⟩ | hc⟩ := exec_cases i s t h
  · rfl
  · rfl
  · obtain ⟨-, -, -, -, hregs, -, -, -⟩ := hc
    exact hregs r hr

/-- Settles O42: a fault and a halt leave the stack, and a completed instruction has its effect on the stack. -/
theorem onlyStackInstructionsChangeTheStack : Obligations.OnlyStackInstructionsChangeTheStack := by
  intro i s t h
  obtain ⟨rec, rfl, -⟩ | ⟨-, ⟨-, rfl⟩ | hc⟩ := exec_cases i s t h
  · exact .inl rfl
  · exact .inl rfl
  · obtain ⟨-, -, -, -, -, -, hstack, -⟩ := hc
    obtain ⟨-, -, -, -, hsame⟩ | hchange := hstack
    · exact .inl hsame
    · exact .inr hchange

/-- An execution that ends Halted, from a state that is not, is one of an instruction that halts. -/
theorem exec_halts (i : Instr) (s t : State) (hs : s.status ≠ .halted) (h : exec i s = .next t)
    (ht : t.status = .halted) : IsHalting i s ∧ t = s.setStatus .halted := by
  obtain ⟨rec, rfl, -⟩ | ⟨-, hhalt | hc⟩ := exec_cases i s t h
  · cases ht
  · exact hhalt
  · obtain ⟨-, hstatus, -⟩ := hc
    exact absurd (hstatus.symm.trans ht) hs

/-- Settles O46: the fault of a refused decode does not halt, so the step is an execution that does. -/
theorem onlyHaltAndEmptyRetHalt : Obligations.OnlyHaltAndEmptyRetHalt := by
  intro s t hs h ht
  obtain ⟨-, ⟨i, hf, he⟩ | ⟨e, rec, -, -, rfl⟩⟩ := step_cases s t h
  · obtain ⟨hi, rfl⟩ := exec_halts i s t (by simp [hs]) he ht
    refine ⟨?_, rfl⟩
    obtain rfl | ⟨rfl, hempty⟩ := hi
    · exact .inl hf
    · exact .inr ⟨hf, hempty⟩
  · cases ht

end Sys2Proof.Proofs.Frames
end

section
/-! SUPPORT. The bounded results (10_state.md R23, 45_arith_logic.md R209): the words that add, mult, not, eq and gt
compute lie below 32768, and the word of mod lies below its divisor. -/

namespace Sys2Proof.Proofs.Bounded

open Sys2Proof.Machine

/-- The 16 bits of a word do not make a number larger. -/
theorem toNat_ofNat_lt (n : Nat) (h : n < 32768) : (BitVec.ofNat 16 n).toNat < 32768 :=
  Nat.lt_of_le_of_lt (Nat.mod_le n _) h

theorem toNat_addWord_lt (x y : Word) : (addWord x y).toNat < 32768 := toNat_ofNat_lt _ (Nat.mod_lt _ (by decide))

theorem toNat_multWord_lt (x y : Word) : (multWord x y).toNat < 32768 := toNat_ofNat_lt _ (Nat.mod_lt _ (by decide))

theorem toNat_modWord_lt (x y : Word) (hpos : 1 ≤ y.toNat) (hlt : y.toNat < 32768) :
    (modWord x y).toNat < 32768 := toNat_ofNat_lt _ (Nat.lt_trans (Nat.mod_lt _ hpos) hlt)

/-- The mask keeps 15 bits (45_arith_logic.md R215). -/
theorem toNat_notWord_lt (x : Word) : (notWord x).toNat < 32768 := by
  rw [notWord, BitVec.toNat_and]
  exact Nat.lt_of_le_of_lt Nat.and_le_right (by decide)

/-- A comparison writes 1 or 0 (43_compare.md R180, R181). -/
theorem toNat_truthWord_lt (b : Bool) : (truthWord b).toNat < 32768 := by cases b <;> decide

/-- A register written holds the value written. -/
theorem toNat_reg_of_assignThenNext_lt (r : Reg) (v : Word) (n : Nat) (s t : State) (hv : v.toNat < 32768)
    (h : assignThenNext (.reg r) v n s = .next t) : (t.reg r).toNat < 32768 := by
  rw [(assignThenNext_next _ v n s t).1 h, State.advance_reg, assign_reg, if_pos rfl]
  exact hv

/-- A `mod` whose divisor is not 0 writes the remainder (45_arith_logic.md R212). -/
theorem execMod_of_ne_zero (a b c : Operand) (s : State) (h : resolve s c ≠ 0) :
    execMod a b c s = assignThenNext a (modWord (resolve s b) (resolve s c)) 4 s := if_neg h

/-- Settles O49: each of the six writes a word that is bounded. -/
theorem boundedResults : Obligations.BoundedResults := by
  rintro i s t r b c (rfl | rfl | rfl | rfl | rfl | ⟨rfl, hpos, hlt⟩) h
  · exact toNat_reg_of_assignThenNext_lt r _ 4 s t (toNat_addWord_lt _ _) h
  · exact toNat_reg_of_assignThenNext_lt r _ 4 s t (toNat_multWord_lt _ _) h
  · exact toNat_reg_of_assignThenNext_lt r _ 3 s t (toNat_notWord_lt _) h
  · exact toNat_reg_of_assignThenNext_lt r _ 4 s t (toNat_truthWord_lt _) h
  · exact toNat_reg_of_assignThenNext_lt r _ 4 s t (toNat_truthWord_lt _) h
  · have hne : resolve s c ≠ 0 := by
      intro hzero
      rw [hzero] at hpos
      exact absurd hpos (by decide)
    have hmod : execMod (.reg r) b c s = .next t := h
    rw [execMod_of_ne_zero _ b c s hne] at hmod
    exact toNat_reg_of_assignThenNext_lt r _ 4 s t (toNat_modWord_lt _ _ hpos hlt) hmod

end Sys2Proof.Proofs.Bounded
end

section
/-! SUPPORT. The frames of memory and of the ports over all instructions: each is read off what `exec` can do. -/

namespace Sys2Proof.Proofs.MemoryAndPorts

open Sys2Proof.Machine Sys2Proof.Safety

/-- Memory is as before, or one word was stored at the address `storeAddress` names (20_memory.md R58). -/
theorem exec_mem (i : Instr) (s t : State) (h : exec i s = .next t) :
    t.mem = s.mem ∨ ∃ n v, storeAddress i s = some n ∧ n < 32768 ∧ t.mem = Memory.writeWord s.mem n v := by
  obtain ⟨rec, rfl, -⟩ | ⟨-, ⟨-, rfl⟩ | hc⟩ := exec_cases i s t h
  · exact .inl rfl
  · exact .inl rfl
  · obtain ⟨-, -, -, -, -, hsame | ⟨a, b, rfl, hlt, hstore⟩, -, -⟩ := hc
    · exact .inl hsame
    · exact .inr ⟨_, _, if_pos hlt, hlt, hstore⟩

/-- Settles O41: the bytes outside the word that is written read as before the write. -/
theorem onlyTheStoredWordChangesInMemory : Obligations.OnlyTheStoredWordChangesInMemory := by
  intro i s t hwf h k hk
  obtain hsame | ⟨n, v, hn, hlt, hstore⟩ := exec_mem i s t h
  · rw [hsame]
  · obtain ⟨hlow, hhigh⟩ := hk n hn
    rw [hstore, Memory.readByte_writeWord s.mem n v k hwf hlt, if_neg hlow, if_neg hhigh]

/-- Settles O43: a fault and a halt leave the ports, and a completed instruction has its effect on them: `out` writes to
the terminal, and `in` reads from it, which leaves the accumulator. -/
theorem onlyInAndOutReachTheTerminal : Obligations.OnlyInAndOutReachTheTerminal := by
  intro i s t h
  obtain ⟨rec, rfl, -⟩ | ⟨-, ⟨-, rfl⟩ | hc⟩ := exec_cases i s t h
  · exact ⟨fun _ => ⟨rfl, rfl⟩, fun _ => rfl⟩
  · exact ⟨fun _ => ⟨rfl, rfl⟩, fun _ => rfl⟩
  · obtain ⟨-, -, -, -, -, -, -, hports⟩ := hc
    obtain ⟨-, -, htrace, hterm⟩ | ⟨a, rfl, -, hterm⟩ | ⟨a, rfl, htrace, hterm⟩ := hports
    · rw [hterm]
      exact ⟨fun _ => ⟨htrace, rfl⟩, fun _ => rfl⟩
    · rw [hterm]
      exact ⟨fun hout => absurd rfl (hout a), fun _ => rfl⟩
    · rw [hterm]
      exact ⟨fun _ => ⟨htrace, (read_frame s.terminal).1⟩, fun hinp => absurd rfl (hinp a)⟩

end Sys2Proof.Proofs.MemoryAndPorts
end

section
/-! SUPPORT. A stored word stays as it was stored (20_memory.md R65): a step or an act of the host that does not store
to it writes one word elsewhere, or leaves memory. -/

namespace Sys2Proof.Proofs.StoredWord

open Sys2Proof.Machine Sys2Proof.Safety Sys2Proof.Proofs.MemoryAndPorts

/-- Memory is as before, or one word at an address other than `n` was written. -/
def StoresElsewhere (n : Nat) (s t : State) : Prop :=
  t.mem = s.mem ∨ ∃ m v, m ≠ n ∧ m < 32768 ∧ t.mem = Memory.writeWord s.mem m v

/-- Memory is in canonical form, and the word at address `n` is `v`. -/
def HoldsWord (n : Nat) (v : Word) (s : State) : Prop := Memory.wf s.mem = true ∧ Memory.readWord s.mem n = v

theorem HoldsWord.of_storesElsewhere {n : Nat} {v : Word} {s t : State} (hs : HoldsWord n v s)
    (h : StoresElsewhere n s t) : HoldsWord n v t := by
  obtain ⟨hwf, hread⟩ := hs
  obtain hsame | ⟨m, w, hne, hlt, hstore⟩ := h
  · rw [HoldsWord, hsame]
    exact ⟨hwf, hread⟩
  · rw [HoldsWord, hstore, Memory.readWord_writeWord s.mem m w n hwf hlt, if_neg hne.symm]
    exact ⟨Memory.wf_writeWord s.mem m w hlt hwf, hread⟩

/-- A word just written is held. -/
theorem holdsWord_of_writeWord (n : Nat) (v : Word) (s t : State) (hwf : Memory.wf s.mem = true) (hlt : n < 32768)
    (h : t.mem = Memory.writeWord s.mem n v) : HoldsWord n v t := by
  rw [HoldsWord, h, Memory.readWord_writeWord s.mem n v n hwf hlt, if_pos rfl]
  exact ⟨Memory.wf_writeWord s.mem n v hlt hwf, rfl⟩

/-- `wmem` inside memory writes its word (46_memory_access.md R241). -/
theorem exec_wmem_mem (a b : Operand) (s t : State) (hlt : (resolve s a).toNat < 32768)
    (h : exec (.wmem a b) s = .next t) :
    t.mem = Memory.writeWord s.mem (resolve s a).toNat (resolve s b) := by
  have hwrite := (memWrite_eq_some s (resolve s a) (resolve s b) _).2 ⟨hlt, rfl⟩
  simp only [exec, execWmem, hwrite] at h
  cases h
  rfl

/-- A step whose instruction does not store to address `n` stores elsewhere or not at all; nor does a refused decode
store. -/
theorem storesElsewhere_of_step (n : Nat) (s t : State) (h : step s = .next t)
    (hn : ∀ i, fetch s = .ok i → storeAddress i s ≠ some n) : StoresElsewhere n s t := by
  obtain ⟨-, ⟨i, hf, he⟩ | ⟨e, r, -, -, rfl⟩⟩ := step_cases s t h
  · obtain hsame | ⟨m, v, hm, hlt, hstore⟩ := exec_mem i s t he
    · exact .inl hsame
    · exact .inr ⟨m, v, fun hmn => hn i hf (hmn ▸ hm), hlt, hstore⟩
  · exact .inl rfl

theorem storesElsewhere_of_hostWrite (n : Nat) (addr v : Word) (s t : State) (h : hostWrite addr v s = some t)
    (hn : addr.toNat ≠ n) : StoresElsewhere n s t := by
  obtain ⟨-, hlt, rfl⟩ := (hostWrite_eq_some addr v s t).1 h
  exact .inr ⟨_, v, hn, hlt, rfl⟩

theorem storesElsewhere_of_applyRequest (n : Nat) (r : DebugRequest) (s t : State) (h : applyRequest r s = some t)
    (hn : ¬ hostMayStore (.debug r) n) : StoresElsewhere n s t := by
  cases r with
  | nothing => cases h; exact .inl rfl
  | breakpoint a => cases h; exact .inl rfl
  | verbosity on => cases h; exact .inl rfl
  | quit => cases h; exact .inl rfl
  | setReg r v =>
    obtain ⟨-, rfl⟩ := (whileRunning_eq_some s _ t).1 h
    exact .inl rfl
  | setMem addr v => exact storesElsewhere_of_hostWrite n addr v s t h hn

/-- Of the acts of the host only a patch, a `setm` and a restore reach memory (20_memory.md R59, R62). -/
theorem storesElsewhere_of_hostEvent (n : Nat) (e : HostEvent) (s t : State) (h : hostEvent e s = some t)
    (hn : ¬ hostMayStore e n) : StoresElsewhere n s t := by
  cases e with
  | inputLine line => cases h; exact .inl rfl
  | setSource kind lines => cases h; exact .inl rfl
  | closeSource => cases h; exact .inl rfl
  | drainOutput => cases h; exact .inl rfl
  | stop => cases h; exact .inl rfl
  | resume =>
    obtain ⟨-, rfl⟩ := (whileRunning_eq_some s _ t).1 h
    exact .inl rfl
  | debug r => exact storesElsewhere_of_applyRequest n r s t h hn
  | patch addr v => exact storesElsewhere_of_hostWrite n addr v s t h hn
  | restore v => exact absurd trivial hn

theorem HoldsWord.of_reaches {n : Nat} {v : Word} {s t : State} (hs : HoldsWord n v s)
    (h : ReachesWithoutStore n s t) : HoldsWord n v t := by
  induction h with
  | refl => exact hs
  | step _ hstep hn ih => exact ih.of_storesElsewhere (storesElsewhere_of_step n _ _ hstep hn)
  | host e _ hevent hn ih => exact ih.of_storesElsewhere (storesElsewhere_of_hostEvent n e _ _ hevent hn)

/-- Either store leaves the address inside memory and the word held there. -/
theorem holdsWord_of_store (s t : State) (addr v : Word) (hwf : Memory.wf s.mem = true)
    (h : (∃ a b, resolve s a = addr ∧ resolve s b = v ∧ addr.toNat < 32768 ∧ exec (.wmem a b) s = .next t) ∨
      hostWrite addr v s = some t) : addr.toNat < 32768 ∧ HoldsWord addr.toNat v t := by
  obtain ⟨a, b, rfl, rfl, hlt, he⟩ | hw := h
  · exact ⟨hlt, holdsWord_of_writeWord _ _ s t hwf hlt (exec_wmem_mem a b s t hlt he)⟩
  · obtain ⟨-, hlt, rfl⟩ := (hostWrite_eq_some addr v s t).1 hw
    exact ⟨hlt, holdsWord_of_writeWord _ _ s _ hwf hlt rfl⟩

/-- Settles O58: the word is held after the store and at every state reached without another store to it, and the
window shows what memory holds. -/
theorem storeIsSeenByEveryLaterFetch : Obligations.StoreIsSeenByEveryLaterFetch := by
  intro s t u addr v p k hwf hstore hreach hk haddr
  obtain ⟨hlt, hheld⟩ := holdsWord_of_store s t addr v hwf hstore
  obtain ⟨-, hread⟩ := hheld.of_reaches hreach
  rw [haddr] at hlt hread
  rw [Memory.window_getElem?, if_pos ⟨hk, hlt⟩, hread]

end Sys2Proof.Proofs.StoredWord
end

section
/-! SUPPORT. No step reads the output trace (10_state.md R34): two states that differ in it alone run alike, for any
number of steps. A restored core and the saved one are two such states (20_memory.md R62). -/

namespace Sys2Proof.Proofs.TraceIndependence

open Sys2Proof.Machine

/-- A result with the output trace of its next state replaced. -/
def withTrace (l : List Word) : Result → Result
  | .next t => .next (t.setOutTrace l)
  | .fault r => .fault r
  | .refused r => .refused r

@[simp] theorem withTrace_next (l : List Word) (t : State) : withTrace l (.next t) = .next (t.setOutTrace l) := rfl

/-! ### The shared operations on a state with another trace -/

@[simp] theorem resolve_setOutTrace (s : State) (l : List Word) (a : Operand) :
    resolve (s.setOutTrace l) a = resolve s a := by cases a <;> rfl

@[simp] theorem assign_setOutTrace (s : State) (l : List Word) (a : Operand) (v : Word) :
    assign (s.setOutTrace l) a v = (assign s a v).setOutTrace l := by cases a <;> rfl

@[simp] theorem pcPlus_setOutTrace (s : State) (l : List Word) (n : Nat) :
    (s.setOutTrace l).pcPlus n = s.pcPlus n := rfl

@[simp] theorem assignThenNext_setOutTrace (a : Operand) (v : Word) (n : Nat) (s : State) (l : List Word) :
    assignThenNext a v n (s.setOutTrace l) = withTrace l (assignThenNext a v n s) := by
  rw [assignThenNext, assign_setOutTrace]
  rfl

@[simp] theorem raise_setOutTrace (c : FaultCause) (addr : Word) (w : Option Word) (s : State) (l : List Word) :
    raise c addr w (s.setOutTrace l) = withTrace l (raise c addr w s) := rfl

theorem decodeFault_setOutTrace (e : DecodeError) (s : State) (l : List Word) :
    decodeFault e (s.setOutTrace l) = withTrace l (decodeFault e s) := by cases e <;> rfl

@[simp] theorem pushThenGo_setOutTrace (opcode v target : Word) (s : State) (l : List Word) :
    pushThenGo opcode v target (s.setOutTrace l) = withTrace l (pushThenGo opcode v target s) := by
  rw [pushThenGo, pushThenGo, apply_ite (withTrace l)]
  rfl

@[simp] theorem branchIf_setOutTrace (taken : Bool) (target : Word) (s : State) (l : List Word) :
    branchIf taken target (s.setOutTrace l) = withTrace l (branchIf taken target s) := by cases taken <;> rfl

/-! ### The instructions with more than one outcome -/

theorem execMod_setOutTrace (a b c : Operand) (s : State) (l : List Word) :
    execMod a b c (s.setOutTrace l) = withTrace l (execMod a b c s) := by
  simp only [execMod, resolve_setOutTrace, assignThenNext_setOutTrace, apply_ite (withTrace l)]
  rfl

theorem execRmem_setOutTrace (a b : Operand) (s : State) (l : List Word) :
    execRmem a b (s.setOutTrace l) = withTrace l (execRmem a b s) := by
  have hread : memRead (s.setOutTrace l) (resolve s b) = memRead s (resolve s b) := rfl
  simp only [execRmem, resolve_setOutTrace, hread]
  cases memRead s (resolve s b) with
  | none => rfl
  | some v => exact assignThenNext_setOutTrace a v 3 s l

theorem execWmem_setOutTrace (a b : Operand) (s : State) (l : List Word) :
    execWmem a b (s.setOutTrace l) = withTrace l (execWmem a b s) := by
  simp only [execWmem, resolve_setOutTrace, memWrite]
  by_cases hlt : (resolve s a).toNat < Config.memWords
  · simp only [if_pos hlt]; rfl
  · simp only [if_neg hlt]; rfl

theorem execPop_setOutTrace (a : Operand) (s : State) (l : List Word) :
    execPop a (s.setOutTrace l) = withTrace l (execPop a s) := by
  simp only [execPop, State.popped, State.setOutTrace_stack]
  cases s.stack.getLast? with
  | none => rfl
  | some v => exact assignThenNext_setOutTrace a v 2 (s.setStack s.stack.dropLast) l

theorem execRet_setOutTrace (s : State) (l : List Word) :
    execRet (s.setOutTrace l) = withTrace l (execRet s) := by
  simp only [execRet, State.popped, State.setOutTrace_stack]
  cases s.stack.getLast? <;> rfl

theorem execIn_setOutTrace (a : Operand) (s : State) (l : List Word) :
    execIn a (s.setOutTrace l) = withTrace l (execIn a s) := by
  simp only [execIn, inRead, State.setOutTrace_terminal]
  cases s.terminal.read.1 with
  | none => rfl
  | some c => exact assignThenNext_setOutTrace a (charCode c) 2 (s.setTerminal s.terminal.read.2) l

/-! ### Execution, the step and a run -/

/-- Every instruction but `out` leaves the trace it finds. -/
theorem exec_setOutTrace (i : Instr) (s : State) (l : List Word) (hout : ∀ a, i ≠ .out a) :
    exec i (s.setOutTrace l) = withTrace l (exec i s) := by
  cases i with
  | out a => exact absurd rfl (hout a)
  | halt => rfl
  | noop => rfl
  | set a b => simp [exec, execSet]
  | eq a b c => simp [exec, execEq]
  | gt a b c => simp [exec, execGt]
  | add a b c => simp [exec, execAdd]
  | mult a b c => simp [exec, execMult]
  | and a b c => simp [exec, execAnd]
  | or a b c => simp [exec, execOr]
  | not a b => simp [exec, execNot]
  | jmp a => rw [exec, exec, execJmp, resolve_setOutTrace]; rfl
  | jt a b => simp [exec, execJt]
  | jf a b => simp [exec, execJf]
  | push a => simp [exec, execPush]
  | call a => simp [exec, execCall]
  | mod a b c => exact execMod_setOutTrace a b c s l
  | rmem a b => exact execRmem_setOutTrace a b s l
  | wmem a b => exact execWmem_setOutTrace a b s l
  | pop a => exact execPop_setOutTrace a s l
  | ret => exact execRet_setOutTrace s l
  | inp a => exact execIn_setOutTrace a s l

/-- `out` appends the same word to the trace it finds. -/
theorem exec_out_setOutTrace (a : Operand) (s : State) (l : List Word) :
    exec (.out a) (s.setOutTrace l) = withTrace (l ++ [resolve s a]) (exec (.out a) s) := by
  rw [exec, execOut, resolve_setOutTrace]
  rfl

/-- With another trace every instruction answers the same, up to the trace. -/
theorem exists_exec_setOutTrace (i : Instr) (s : State) (l : List Word) :
    ∃ l', exec i (s.setOutTrace l) = withTrace l' (exec i s) := by
  by_cases hout : ∃ a, i = .out a
  · obtain ⟨a, rfl⟩ := hout
    exact ⟨_, exec_out_setOutTrace a s l⟩
  · exact ⟨l, exec_setOutTrace i s l fun a ha => hout ⟨a, ha⟩⟩

/-- The trace takes no part in the status or in the fetch. -/
theorem exists_step_setOutTrace (s : State) (l : List Word) :
    ∃ l', step (s.setOutTrace l) = withTrace l' (step s) := by
  have hfetch : fetch (s.setOutTrace l) = fetch s := rfl
  simp only [step, State.setOutTrace_status, hfetch]
  cases s.status with
  | running =>
    cases fetch s with
    | ok i => exact exists_exec_setOutTrace i s l
    | error e => exact ⟨l, decodeFault_setOutTrace e s l⟩
  | halted => exact ⟨l, rfl⟩
  | faulted r => exact ⟨l, rfl⟩

theorem run_succ_eq_next (k : Nat) (s t : State) : Host.Core.run Sys2Proof.core (k + 1) s = .next t ↔
    ∃ m, step s = .next m ∧ Host.Core.run Sys2Proof.core k m = .next t := by
  have hcore : Sys2Proof.core.step s = step s := rfl
  simp only [Host.Core.run, hcore]
  cases step s <;> simp

theorem exists_run_setOutTrace (k : Nat) (s t : State) (l : List Word)
    (h : Host.Core.run Sys2Proof.core k s = .next t) :
    ∃ l', Host.Core.run Sys2Proof.core k (s.setOutTrace l) = .next (t.setOutTrace l') := by
  induction k generalizing s l with
  | zero => cases h; exact ⟨l, rfl⟩
  | succ k ih =>
    obtain ⟨m, hstep, hrest⟩ := (run_succ_eq_next k s t).1 h
    obtain ⟨l₁, hstep₁⟩ := exists_step_setOutTrace s l
    rw [hstep, withTrace_next] at hstep₁
    obtain ⟨l₂, hrest₂⟩ := ih m l₁ hrest
    exact ⟨l₂, (run_succ_eq_next k _ _).2 ⟨_, hstep₁, hrest₂⟩⟩

/-- With the saved core's terminal and limit a restore gives the saved core, the trace aside (20_memory.md R62). -/
theorem restore_save (s u : State) (hs : s.status = .running) (hterm : u.terminal = s.terminal)
    (hlimit : u.stackLimit = s.stackLimit) : restore (save s) u = s.setOutTrace u.outTrace := by
  simp only [restore, save, State.setOutTrace, hs, hterm, hlimit]

/-- Settles O55: the restored core is the saved one with another trace, so it runs as that one does. -/
theorem restoredCoreContinuesAsSaved : Obligations.RestoredCoreContinuesAsSaved := by
  intro s u hs hterm hlimit
  refine ⟨s.setOutTrace u.outTrace, congrArg some (restore_save s u hs hterm hlimit), hs, rfl, fun k t h => ?_⟩
  obtain ⟨l, hrun⟩ := exists_run_setOutTrace k s t u.outTrace h
  exact ⟨t.setOutTrace l, hrun, rfl, rfl, rfl⟩

end Sys2Proof.Proofs.TraceIndependence
end

section
/-! SUPPORT. The round trip of 30_encoding.md R94: the row of an instruction's opcode rebuilds it from its operands, and
the operand words read back. Then the fields of an operand word (30_encoding.md R85) as the parts of its number. -/

namespace Sys2Proof.Proofs.Encoding

/-! ### Decoding an encoding -/

/-- A row of the opcode map, given operands of the row's count in order, makes an instruction. -/
inductive RowBuilds : Row → List Operand → Instr → Prop
  | f0 (i : Instr) : RowBuilds (.f0 i) [] i
  | f1 (mk : Operand → Instr) (a : Operand) : RowBuilds (.f1 mk) [a] (mk a)
  | f2 (mk : Operand → Operand → Instr) (a b : Operand) : RowBuilds (.f2 mk) [a, b] (mk a b)
  | f3 (mk : Operand → Operand → Operand → Instr) (a b c : Operand) : RowBuilds (.f3 mk) [a, b, c] (mk a b c)

/-- The opcode map inverts the numbering of the opcodes (30_encoding.md R90). -/
theorem exists_opcodeRow_opcode (i : Instr) :
    ∃ row, opcodeRow i.opcode = some row ∧ RowBuilds row i.operands i := by
  cases i <;> exact ⟨_, rfl, by constructor⟩

/-- A row reads back the words of well-formed operands, and leaves the words after them. -/
theorem decodeRow_encodeOperand {row : Row} {os : List Operand} {i : Instr} (rest : List Word)
    (h : RowBuilds row os i) (hwf : ∀ o ∈ os, o.wellFormed = true) :
    decodeRow row (os.map encodeOperand ++ rest) = .ok (i, rest) := by
  have hread (k : Nat) (ws : List Word) : ∀ o ∈ os, operandAt k (encodeOperand o :: ws) = .ok (o, ws) :=
    fun o ho => operandAt_encodeOperand k o ws (hwf o ho)
  cases h with
  | f0 i => rfl
  | f1 mk a => simp [decodeRow, hread]
  | f2 mk a b => simp [decodeRow, hread]
  | f3 mk a b c => simp [decodeRow, hread]

/-- Decoding the encoding of a well-formed instruction gives it back, with the words after it (30_encoding.md R94). -/
theorem decodeWords_encode (i : Instr) (rest : List Word) (h : i.wellFormed = true) :
    decodeWords (encode i ++ rest) = .ok (i, rest) := by
  obtain ⟨row, hrow, hbuilds⟩ := exists_opcodeRow_opcode i
  have hoperands := decodeRow_encodeOperand rest hbuilds (List.all_eq_true.1 h)
  simp only [encode, List.cons_append, decodeWords, Instr.toNat_opcode, hrow, hoperands]

/-- Settles O2: the round trip, and what the encoder writes. -/
theorem decodeOfEncodeIsTheInstruction : Obligations.DecodeOfEncodeIsTheInstruction :=
  ⟨decodeWords_encode, fun _ => rfl, fun _ => rfl, fun r => toNat_encodeOperand (.reg r)⟩

/-! ### The fields of an operand word -/

/-- Bit 15 counts 32768, bits 14..3 count eights, and bits 2..0 are the rest. -/
theorem toNat_eq_fields (w : Word) :
    w.toNat = 32768 * w.msb.toNat + 8 * (w.extractLsb' 3 12).toNat + (w.extractLsb' 0 3).toNat := by
  have hw := w.isLt
  have hmsb : w.msb.toNat = w.toNat / 32768 := by
    rw [BitVec.msb_eq_decide, Bool.toNat, Bool.cond_decide]
    split <;> omega
  simp only [hmsb, BitVec.extractLsb'_toNat, Nat.shiftRight_eq_div_pow]
  omega

/-- With bit 15 clear a word is its bits 14..0. -/
theorem setWidth_extractLsb'_of_lt (w : Word) (h : w.toNat < 32768) : (w.extractLsb' 0 15).setWidth 16 = w := by
  apply BitVec.eq_of_toNat_eq
  simp only [BitVec.toNat_setWidth, BitVec.extractLsb'_toNat, Nat.shiftRight_zero]
  omega

/-- Settles O4: the classes in numbers are those of `decodeOperand`, and the fields of a word give its number. -/
theorem operandWordClasses : Obligations.OperandWordClasses := by
  intro w
  have hw := toNat_eq_fields w
  have hlow := (w.extractLsb' 0 3).isLt
  have hmid := (w.extractLsb' 3 12).isLt
  refine ⟨decodeOperand_lit w, decodeOperand_reg w, decodeOperand_invalid w, ?literal, ?register, ?invalid⟩
  case literal =>
    intro hmsb
    rw [hmsb, Bool.toNat_false] at hw
    rw [setWidth_extractLsb'_of_lt w (by omega)]
    exact decodeOperand_lit w (by omega)
  case register =>
    intro hmsb hzero
    rw [hmsb, Bool.toNat_true, hzero] at hw
    exact decodeOperand_reg w _ hw
  case invalid =>
    intro hmsb hne
    have hpos : (w.extractLsb' 3 12).toNat ≠ 0 := fun h => hne (BitVec.eq_of_toNat_eq h)
    rw [hmsb, Bool.toNat_true] at hw
    exact decodeOperand_invalid w (by omega)

end Sys2Proof.Proofs.Encoding
end

section
/-! SUPPORT. The loop (40_execution_loop.md R120 to R128): the step of a running core executes the instruction memory
holds at the pointer and always answers, no step exists from a final status, and the pointer and the status after an
instruction are those of the table of R124. -/

namespace Sys2Proof.Proofs.Loop

open Sys2Proof.Machine Sys2Proof.Safety Sys2Proof.Proofs.Encoding
open Sys2Proof.Proofs.TraceIndependence (run_succ_eq_next)

/-! ### The step and the words at the pointer -/

/-- Settles O5: the fetch is the decode of the instruction window. -/
theorem stepRunsTheDecodedInstruction : Obligations.StepRunsTheDecodedInstruction := by
  intro s i rest hs hd
  exact step_of_fetch s i hs (fetch_of_decode s i rest hd)

/-- The instruction window begins with the encoding that memory holds word by word. -/
theorem encode_prefix_window (m : Memory) (n : Nat) (i : Instr) (hfits : n + i.size ≤ 32768)
    (hmem : ∀ k, k < i.size → (encode i)[k]? = some (Memory.readWord m (n + k))) :
    encode i <+: Memory.window m n 4 := by
  rw [List.prefix_iff_getElem?]
  intro k hk
  have hsize : k < i.size := length_encode i ▸ hk
  have hmax := i.size_le
  have hplace : k < 4 ∧ n + k < Config.memWords := ⟨by omega, by simp only [Config.memWords]; omega⟩
  rw [Memory.window_getElem?, if_pos hplace, ← hmem k hsize, List.getElem?_eq_getElem hk]

/-- Settles O6: the window is the encoding and further words, and an encoding decodes to its instruction. -/
theorem stepRunsTheInstructionInMemory : Obligations.StepRunsTheInstructionInMemory := by
  intro s i hs hwf hfits hmem
  obtain ⟨rest, hwindow⟩ := encode_prefix_window s.mem s.pc.toNat i hfits hmem
  exact step_of_fetch s i hs (fetch_of_decode s i rest (hwindow ▸ decodeWords_encode i rest hwf))

/-! ### When a step answers a next state -/

theorem exists_pushThenGo_next (opcode v target : Word) (s : State) : ∃ t, pushThenGo opcode v target s = .next t := by
  obtain ⟨-, h⟩ | ⟨-, h⟩ := pushThenGo_eq opcode v target s
  · exact ⟨_, h⟩
  · exact ⟨_, h⟩

/-- Every instruction has a next state in every state: a fault and a halt are next states too. -/
theorem exists_exec_next (i : Instr) (s : State) : ∃ t, exec i s = .next t := by
  cases i with
  | halt | set | eq | gt | jmp | jt | jf | add | mult | and | or | not | out | noop => exact ⟨_, rfl⟩
  | push a => exact exists_pushThenGo_next _ _ _ s
  | call a => exact exists_pushThenGo_next _ _ _ s
  | pop a =>
    simp only [exec, execPop]
    split <;> exact ⟨_, rfl⟩
  | mod a b c =>
    simp only [exec, execMod]
    split <;> exact ⟨_, rfl⟩
  | rmem a b =>
    simp only [exec, execRmem]
    split <;> exact ⟨_, rfl⟩
  | wmem a b =>
    simp only [exec, execWmem]
    split <;> exact ⟨_, rfl⟩
  | ret =>
    simp only [exec, execRet]
    split <;> exact ⟨_, rfl⟩
  | inp a =>
    obtain ⟨-, h⟩ | ⟨c, -, h⟩ := execIn_eq a s
    · exact ⟨_, h⟩
    · exact ⟨_, h⟩

/-- Settles O9: the fetch gives an instruction, or a fault that is a next state. -/
theorem runningCoreAnswersANextState : Obligations.RunningCoreAnswersANextState := by
  intro s hs
  cases hf : fetch s with
  | ok i =>
    obtain ⟨t, ht⟩ := exists_exec_next i s
    exact ⟨t, (step_of_fetch s i hs hf).trans ht⟩
  | error e =>
    obtain ⟨r, -, hr⟩ := decodeFault_eq e s
    exact ⟨_, (step_of_fetch_error s e hs hf).trans hr⟩

/-- Settles O10: a step that answers a next state was taken from Running. -/
theorem finalStatusHasNoStep : Obligations.FinalStatusHasNoStep := by
  intro s hs t h
  obtain ⟨hrunning, -⟩ := step_cases s t h
  exact hs hrunning

/-! ### The table of the pointer and the status -/

/-- The table leaves the pointer of an instruction that halts. -/
theorem pcTable_of_isHalting (i : Instr) (s : State) (h : IsHalting i s) : pcTable i s = s.pc := by
  obtain rfl | ⟨rfl, hempty⟩ := h
  · rfl
  · simp [pcTable, hempty]

theorem not_isHalting_call (a : Operand) (s : State) : ¬ IsHalting (.call a) s := by simp [IsHalting]

theorem stack_of_stackEffect_call (a : Operand) (s t : State) (h : StackEffect (.call a) s t) :
    t.stack = s.stack ++ [s.pc + 2] := by
  obtain ⟨-, -, hcall, -⟩ | ⟨b, hpush, -⟩ | ⟨-, -, hstack⟩ | ⟨⟨b, hpop⟩ | hret, -⟩ := h
  · exact absurd rfl (hcall a)
  · cases hpush
  · exact hstack
  · cases hpop
  · cases hret

/-- Settles O44: a fault sets the status alone, so does a halt, and a completed instruction follows the table. -/
theorem pointerAndStatusFollowTheTable : Obligations.PointerAndStatusFollowTheTable := by
  intro i s t h
  obtain ⟨r, rfl, hfaults, -⟩ | ⟨hnot, ⟨hhalt, rfl⟩ | hc⟩ := exec_cases i s t h
  · exact ⟨fun _ => ⟨rfl, r, rfl⟩, fun hn => absurd hfaults hn⟩
  · refine ⟨fun hf => absurd hf hnot, fun _ => ⟨(pcTable_of_isHalting i s hhalt).symm, (if_pos hhalt).symm, ?_⟩⟩
    rintro a rfl
    exact absurd hhalt (not_isHalting_call a s)
  · obtain ⟨hrunsOn, hstatus, -, hpc, -, -, hstack, -⟩ := hc
    refine ⟨fun hf => absurd hf hnot, fun _ => ⟨hpc, hstatus.trans (if_neg hrunsOn).symm, ?_⟩⟩
    rintro a rfl
    exact stack_of_stackEffect_call a s t hstack

/-! ### A suspended `in` -/

/-- A step that answers its own state is retried for ever (40_execution_loop.md R126). -/
theorem run_of_step_self (s : State) (h : step s = .next s) (k : Nat) :
    Host.Core.run Sys2Proof.core k s = .next s := by
  induction k with
  | zero => rfl
  | succ k ih => exact (run_succ_eq_next k s s).2 ⟨s, h, ih⟩

/-- An `in` that finds no character leaves all but the terminal (47_io.md R252). -/
theorem execIn_of_read_none (a : Operand) (s : State) (h : s.terminal.read.1 = none) :
    execIn a s = .next (s.setTerminal s.terminal.read.2) := by
  obtain ⟨-, hin⟩ | ⟨c, hc, -⟩ := execIn_eq a s
  · exact hin
  · cases h.symm.trans hc

/-- Settles O52: with nothing to read the step changes the terminal alone, and with nothing to pull it answers its own
state. -/
theorem suspendedInIsRetried : Obligations.SuspendedInIsRetried := by
  intro a s hs hf
  have hstep : step s = execIn a s := step_of_fetch s (.inp a) hs hf
  refine ⟨fun hnone => ⟨_, hstep.trans (execIn_of_read_none a s hnone)⟩, fun hbuf hlines => run_of_step_self s ?_⟩
  have hread := read_exhausted s.terminal hbuf hlines
  rw [hstep, execIn_of_read_none a s (by rw [hread]), hread, State.setTerminal_self]

end Sys2Proof.Proofs.Loop
end

section
/-! SUPPORT. The refinement of 40_execution_loop.md R121: the decoder of the instruction window and the decoder of
30_encoding.md R91, one `MemRead` at a time, give the same instruction or the same fault. The loop over the operand
words is the meeting point: `readOperands` runs it on the words of the window. -/

namespace Sys2Proof.Proofs.SpecDecoder

open Sys2Proof.Machine Sys2Proof.Safety Sys2Proof.Proofs.Encoding
open Sys2Proof.Proofs.Fetch (toNat_pcPlus)

/-- The record of the fault a refused decode raises (60_exceptions.md R302). -/
def faultRecord (s : State) : DecodeError → FaultRecord
  | .truncated k => ⟨.memoryOutOfRange, s.pc, s.pcPlus k, none⟩
  | .invalidOpcode w => ⟨.invalidOpcode, s.pc, s.pc, some w⟩
  | .invalidOperand k w => ⟨.invalidOperand, s.pc, s.pcPlus k, some w⟩

theorem decodeFault_eq_faultRecord (e : DecodeError) (s : State) :
    decodeFault e s = .next (s.setStatus (.faulted (faultRecord s e))) := by
  cases e <;> rfl

/-- The `n` operand words from the k-th on, at the head of the words (30_encoding.md R91, the loop over k). -/
def readOperands : Nat → Nat → List Word → Except DecodeError (List Operand)
  | _, 0, _ => .ok []
  | k, n + 1, ws =>
    match operandAt k ws with
    | .error e => .error e
    | .ok (o, ws') =>
      match readOperands (k + 1) n ws' with
      | .error e => .error e
      | .ok os => .ok (o :: os)

/-! ### The rows of the opcode map run the loop -/

/-- What a row's decoder answers where the loop over its operand words gives `res`. -/
def DecodesAs (row : Row) (ws : List Word) (res : Except DecodeError (List Operand)) : Prop :=
  match res with
  | .error e => decodeRow row ws = .error e
  | .ok os => ∃ i rest, decodeRow row ws = .ok (i, rest) ∧ RowBuilds row os i

theorem decodesAs_readOperands (row : Row) (ws : List Word) :
    DecodesAs row ws (readOperands 1 row.operandCount ws) := by
  cases row with
  | f0 i => exact ⟨i, ws, rfl, .f0 i⟩
  | f1 mk =>
    simp only [DecodesAs, Row.operandCount, readOperands, decodeRow]
    cases operandAt 1 ws with
    | error e => rfl
    | ok p => exact ⟨_, _, rfl, .f1 mk p.1⟩
  | f2 mk =>
    simp only [DecodesAs, Row.operandCount, readOperands, decodeRow]
    cases operandAt 1 ws with
    | error e => rfl
    | ok p =>
      dsimp only
      cases operandAt 2 p.2 with
      | error e => rfl
      | ok q => exact ⟨_, _, rfl, .f2 mk p.1 q.1⟩
  | f3 mk =>
    simp only [DecodesAs, Row.operandCount, readOperands, decodeRow]
    cases operandAt 1 ws with
    | error e => rfl
    | ok p =>
      dsimp only
      cases operandAt 2 p.2 with
      | error e => rfl
      | ok q =>
        dsimp only
        cases operandAt 3 q.2 with
        | error e => rfl
        | ok u => exact ⟨_, _, rfl, .f3 mk p.1 q.1 u.1⟩

/-- Only a number above 21 has no row (30_encoding.md R82). -/
theorem lt_of_opcodeRow_eq_none (n : Nat) (h : opcodeRow n = none) : 21 < n := by
  by_contra hle
  simpa [h] using opcodeRow_some n (by omega)

/-- The table of the operand counts is that of the rows (30_encoding.md R81). -/
theorem operandCount_of_opcodeRow (n : Nat) (row : Row) (h : opcodeRow n = some row) :
    row.operandCount = operandCount n := by
  unfold opcodeRow at h
  split at h <;> cases h <;> rfl

/-- What a row builds is the instruction of its number and operands (30_encoding.md R90). -/
theorem instruction_of_rowBuilds (n : Nat) (row : Row) (os : List Operand) (i : Instr) (h : opcodeRow n = some row)
    (hb : RowBuilds row os i) : instruction n os = some i ∧ i.size = 1 + row.operandCount := by
  unfold opcodeRow at h
  split at h <;> cases h <;> cases hb <;> exact ⟨rfl, rfl⟩

/-! ### The loop on the window and the loop on memory -/

/-- One operand word of the window: absent past address 32767, else the word in memory, decoded. -/
theorem operandAt_window (m : Memory) (k n c : Nat) :
    operandAt k (Memory.window m n (c + 1)) =
      if n < 32768 then
        match decodeOperand (Memory.readWord m n) with
        | some o => .ok (o, Memory.window m (n + 1) c)
        | none => .error (.invalidOperand k (Memory.readWord m n))
      else .error (.truncated k) := by
  rw [Memory.window]
  split
  · rfl
  · rfl

/-- Reading one word at a time from memory is reading the window, with the same faults. -/
theorem operandsAt_eq_readOperands (s : State) (n k c : Nat) (hpc : s.pc.toNat < 32768) (hcount : n ≤ c)
    (hk : k + n ≤ 4) :
    operandsAt s k n = (readOperands k n (Memory.window s.mem (s.pc.toNat + k) c)).mapError (faultRecord s) := by
  induction n generalizing k c with
  | zero => rfl
  | succ n ih =>
    obtain ⟨c, rfl⟩ : ∃ c', c = c' + 1 := ⟨c - 1, by omega⟩
    have hrest := ih (k + 1) c (by omega) (by omega)
    have haddr : (s.pc + BitVec.ofNat 16 k).toNat = s.pc.toNat + k := toNat_pcPlus s k (by omega)
    by_cases hlt : s.pc.toNat + k < 32768
    · have hread := (memRead_eq_some s (s.pc + BitVec.ofNat 16 k) _).2 ⟨haddr ▸ hlt, rfl⟩
      rw [haddr] at hread
      simp only [operandsAt, readOperands, hread, operandAt_window, if_pos hlt, hrest]
      cases decodeOperand (Memory.readWord s.mem (s.pc.toNat + k)) with
      | none => rfl
      | some o =>
        simp only [Nat.add_assoc]
        cases readOperands (k + 1) n (Memory.window s.mem (s.pc.toNat + (k + 1)) c) <;> rfl
    · have hread := (memRead_eq_none s (s.pc + BitVec.ofNat 16 k)).2 (by omega)
      simp only [operandsAt, readOperands, hread, operandAt_window, if_neg hlt]
      rfl

/-! ### The two decoders -/

/-- What the spec's decoder answers where the fetch answers `res`. -/
def SpecAgrees (s : State) (res : Except DecodeError Instr) : Prop :=
  match res with
  | .error e => decodeAtPc s = .error (faultRecord s e)
  | .ok i => ∃ op os, decodeAtPc s = .ok (op, os) ∧ instruction op os = some i ∧ i.size = 1 + operandCount op

theorem fetch_eq_map (s : State) :
    fetch s = (decodeWords (Memory.window s.mem s.pc.toNat 4)).map Prod.fst := by
  unfold fetch
  cases decodeWords (Memory.window s.mem s.pc.toNat 4) <;> rfl

/-- Inside memory the window begins with the opcode word. -/
theorem window_at_pc (s : State) (hpc : s.pc.toNat < 32768) :
    Memory.window s.mem s.pc.toNat 4 =
      Memory.readWord s.mem s.pc.toNat :: Memory.window s.mem (s.pc.toNat + 1) 3 := by
  rw [Memory.window, if_pos hpc]

/-- With a row for the opcode word the fetch is the row's decoder. -/
theorem fetch_of_opcodeRow (s : State) (row : Row) (hpc : s.pc.toNat < 32768)
    (hrow : opcodeRow (Memory.readWord s.mem s.pc.toNat).toNat = some row) :
    fetch s = (decodeRow row (Memory.window s.mem (s.pc.toNat + 1) 3)).map Prod.fst := by
  rw [fetch_eq_map, window_at_pc s hpc]
  simp only [decodeWords, hrow]

/-- With a row for the opcode word the spec's decoder is the loop over the row's operand words. -/
theorem decodeAtPc_of_opcodeRow (s : State) (op : Word) (row : Row) (hread : memRead s s.pc = some op)
    (hrow : opcodeRow op.toNat = some row) :
    decodeAtPc s = (operandsAt s 1 row.operandCount).map (Prod.mk op.toNat) := by
  have hop : ¬ 21 < op.toNat := fun h => by simp [opcodeRow_none _ h] at hrow
  rw [operandCount_of_opcodeRow op.toNat row hrow]
  simp only [decodeAtPc, hread, if_neg hop]
  cases operandsAt s 1 (operandCount op.toNat) <;> rfl

/-- Past address 32767 both decoders fault on the opcode word. -/
theorem specAgrees_fetch_of_out (s : State) (hpc : 32768 ≤ s.pc.toNat) : SpecAgrees s (fetch s) := by
  have hread := (memRead_eq_none s s.pc).2 hpc
  have hfirst : s.pcPlus 0 = s.pc := by simp [State.pcPlus]
  rw [fetch_eq_map, Memory.window_out s.mem s.pc.toNat 4 hpc]
  simp only [decodeWords, Except.map, SpecAgrees, decodeAtPc, hread, faultRecord, hfirst]

/-- An opcode word above 21 is the fault of both decoders. -/
theorem specAgrees_fetch_of_invalidOpcode (s : State) (hpc : s.pc.toNat < 32768)
    (hop : 21 < (Memory.readWord s.mem s.pc.toNat).toNat) : SpecAgrees s (fetch s) := by
  have hread := (memRead_eq_some s s.pc _).2 ⟨hpc, rfl⟩
  rw [fetch_eq_map, window_at_pc s hpc]
  simp only [decodeWords, opcodeRow_none _ hop, Except.map, SpecAgrees, decodeAtPc, hread, if_pos hop, faultRecord]

/-- With a row for the opcode word both decoders are the loop over its operand words. -/
theorem specAgrees_fetch_of_opcodeRow (s : State) (row : Row) (hpc : s.pc.toNat < 32768)
    (hrow : opcodeRow (Memory.readWord s.mem s.pc.toNat).toNat = some row) : SpecAgrees s (fetch s) := by
  have hspec := decodeAtPc_of_opcodeRow s _ row ((memRead_eq_some s s.pc _).2 ⟨hpc, rfl⟩) hrow
  have hmax : row.operandCount ≤ 3 := by cases row <;> simp [Row.operandCount]
  rw [operandsAt_eq_readOperands s row.operandCount 1 3 hpc hmax (by omega)] at hspec
  have hdecodes := decodesAs_readOperands row (Memory.window s.mem (s.pc.toNat + 1) 3)
  rw [fetch_of_opcodeRow s row hpc hrow]
  cases hloop : readOperands 1 row.operandCount (Memory.window s.mem (s.pc.toNat + 1) 3) with
  | error e =>
    rw [hloop] at hspec hdecodes
    rw [hdecodes]
    exact hspec
  | ok os =>
    rw [hloop] at hspec hdecodes
    obtain ⟨i, rest, hdecode, hbuilds⟩ := hdecodes
    obtain ⟨hinstr, hsize⟩ := instruction_of_rowBuilds _ row os i hrow hbuilds
    rw [hdecode]
    exact ⟨_, os, hspec, hinstr, operandCount_of_opcodeRow _ row hrow ▸ hsize⟩

/-- The fetch and the spec's decoder give the same instruction or the same fault (40_execution_loop.md R121). -/
theorem specAgrees_fetch (s : State) : SpecAgrees s (fetch s) := by
  obtain hpc | hpc := Nat.lt_or_ge s.pc.toNat 32768
  · cases hrow : opcodeRow (Memory.readWord s.mem s.pc.toNat).toNat with
    | none => exact specAgrees_fetch_of_invalidOpcode s hpc (lt_of_opcodeRow_eq_none _ hrow)
    | some row => exact specAgrees_fetch_of_opcodeRow s row hpc hrow
  · exact specAgrees_fetch_of_out s hpc

/-- Settles O8: the step takes the fetch's fault or executes its instruction, and the spec's decoder agrees with the
fetch. -/
theorem stepFollowsTheSpecsDecoder : Obligations.StepFollowsTheSpecsDecoder := by
  intro s hs
  have hagrees := specAgrees_fetch s
  cases hf : fetch s with
  | error e =>
    rw [hf, SpecAgrees] at hagrees
    have hstep := (step_of_fetch_error s e hs hf).trans (decodeFault_eq_faultRecord e s)
    simp only [hagrees]
    refine ⟨?_, ?_⟩
    · rintro r ⟨⟩
      exact hstep
    · rintro op os ⟨⟩
  | ok i =>
    rw [hf] at hagrees
    obtain ⟨op, os, hspec, hinstr, hsize⟩ := hagrees
    simp only [hspec]
    refine ⟨?_, ?_⟩
    · rintro r ⟨⟩
    · rintro op' os' ⟨⟩
      exact ⟨i, hinstr, hsize, step_of_fetch s i hs hf⟩

end Sys2Proof.Proofs.SpecDecoder
end

section
/-! SUPPORT. The system instructions (41_system.md R150, R151): what `halt` and `noop` answer in every state, and the
step of a running core that has the word of `halt` at the pointer. -/

namespace Sys2Proof.Proofs.System

open Sys2Proof.Machine Sys2Proof.Safety
open Sys2Proof.Proofs.Loop (stepRunsTheInstructionInMemory)

theorem exec_halt (s : State) : exec .halt s = .next (s.setStatus .halted) := rfl

theorem exec_noop (s : State) : exec .noop s = .next (s.advance 1) := rfl

/-- The word 0 at the pointer is the whole encoding of `halt`, so a running core executes it. -/
theorem step_of_readWord_eq_zero (s : State) (hs : s.status = .running) (hpc : s.pc.toNat < 32768)
    (hword : Memory.readWord s.mem s.pc.toNat = 0) : step s = .next (s.setStatus .halted) := by
  have hmem : ∀ k, k < Instr.halt.size →
      (encode .halt)[k]? = some (Memory.readWord s.mem (s.pc.toNat + k)) := by
    intro k hk
    obtain rfl : k = 0 := Nat.lt_one_iff.1 hk
    exact congrArg some hword.symm
  exact (stepRunsTheInstructionInMemory s .halt hs rfl hpc hmem).trans (exec_halt s)

/-- Settles O18: `halt` sets the status alone, and a running core with the word 0 at the pointer executes it. -/
theorem haltResult : Obligations.HaltResult :=
  ⟨rfl, fun s => ⟨exec_halt s, step_of_readWord_eq_zero s⟩⟩

/-- Settles O19: `noop` is the advance by one word, which leaves every other field as it was. -/
theorem noopResult : Obligations.NoopResult := by
  refine ⟨rfl, fun s => ⟨s.advance 1, exec_noop s, ?pc, ?regs, ?mem, State.advance_stack s 1, ?rest⟩⟩
  case pc => exact State.advance_pc s 1
  case regs => exact State.advance_reg s 1
  case mem => exact fun k => congrArg (Memory.readByte · k) (State.advance_mem s 1)
  case rest =>
    exact ⟨State.advance_status s 1, State.advance_outTrace s 1, State.advance_terminal s 1, State.advance_stackLimit s 1⟩

end Sys2Proof.Proofs.System
end

section
/-! SUPPORT. The effects the statements are written with: how they compose, and that writing through a destination and
advancing has exactly the effect `OnlyAssigns`. -/

namespace Sys2Proof.Proofs.Effects

open Sys2Proof.Machine Sys2Proof.Safety

theorem sameMem_of_mem_eq {s t : State} (h : t.mem = s.mem) : SameMem s t :=
  fun k => congrArg (Memory.readByte · k) h

theorem sameMem_trans {s t u : State} (hst : SameMem s t) (htu : SameMem t u) : SameMem s u :=
  fun k => (htu k).trans (hst k)

theorem sameRest_trans {s t u : State} (hst : SameRest s t) (htu : SameRest t u) : SameRest s u := by
  obtain ⟨hstatus, htrace, hterminal, hlimit⟩ := hst
  obtain ⟨hstatus', htrace', hterminal', hlimit'⟩ := htu
  exact ⟨hstatus'.trans hstatus, htrace'.trans htrace, hterminal'.trans hterminal, hlimit'.trans hlimit⟩

/-- A write through a destination, seen from an earlier state with the same registers. -/
theorem assigns_of_sameRegs {a : Operand} {n : Nat} {s t u : State} (hst : SameRegs s t) (htu : Assigns a n t u) :
    Assigns a n s u :=
  fun r => hst r ▸ htu r

/-- The whole effect of `assign(a, v); pc <- next` (30_encoding.md R87, R88). -/
theorem onlyAssigns_assign_advance (a : Operand) (v : Word) (size : Nat) (s : State) :
    OnlyAssigns a v.toNat size s ((assign s a v).advance size) := by
  refine ⟨fun r => ?assigned, assign_pcPlus s a v size, sameMem_of_mem_eq (assign_mem s a v), assign_stack s a v,
    assign_status s a v, assign_outTrace s a v, assign_terminal s a v, assign_stackLimit s a v⟩
  case assigned => rw [State.advance_reg, assign_reg, apply_ite BitVec.toNat]

end Sys2Proof.Proofs.Effects
end

section
/-! SUPPORT. The moves and the operand stack (42_move_stack.md R160 to R163): what `set`, `push` and `pop` answer, their
effects and frames, and `pop` after `push` composed from the two. -/

namespace Sys2Proof.Proofs.MoveStack

open Sys2Proof.Machine Sys2Proof.Safety Sys2Proof.Proofs.Effects

/-- With room on the stack, `Push(v)` and the jump (10_state.md R27); shared by `push` and `call`. -/
theorem pushThenGo_of_room (opcode v target : Word) (s : State) (h : s.stackLimit ≠ some s.stack.length) :
    pushThenGo opcode v target s = .next ((s.pushed v).setPc target) := by
  obtain ⟨hfull, -⟩ | ⟨-, hgo⟩ := pushThenGo_eq opcode v target s
  · exact absurd ((stackFull_iff s).1 hfull) h
  · exact hgo

/-- At the limit of the stack, `StackOverflow` (10_state.md R27); shared by `push` and `call`. -/
theorem pushThenGo_of_limit (opcode v target : Word) (s : State) (h : s.stackLimit = some s.stack.length) :
    pushThenGo opcode v target s = .next (faultedState s .stackOverflow s.pc (some opcode)) := by
  obtain ⟨-, hraise⟩ | ⟨hroom, -⟩ := pushThenGo_eq opcode v target s
  · exact hraise
  · exact absurd ((stackFull_iff s).2 h) (by simp [hroom])

theorem exec_pop_of_append (a : Operand) (s : State) (l : List Word) (v : Word) (h : s.stack = l ++ [v]) :
    exec (.pop a) s = .next ((assign (s.setStack l) a v).advance 2) := by
  simp [exec, execPop, popped_append s l v h, assignThenNext]

theorem exec_pop_of_nil (a : Operand) (s : State) (h : s.stack = []) :
    exec (.pop a) s = .next (faultedState s .stackUnderflow s.pc (some 3)) := by
  simp only [exec, execPop, popped_nil s h]
  rfl

/-- Settles O20: `set` writes the resolved word through its destination and advances by three words. -/
theorem setResult : Obligations.SetResult :=
  fun a b s => ⟨rfl, (assign s a (resolve s b)).advance 3, rfl, onlyAssigns_assign_advance a (resolve s b) 3 s⟩

/-- Settles O21: with room the word is appended, which leaves every field but the stack and the pointer; at the limit
the fault sets the status alone. -/
theorem pushResult : Obligations.PushResult := by
  refine fun a s => ⟨rfl, fun hroom => ?room, pushThenGo_of_limit 2 (resolve s a) (s.pcPlus 2) s⟩
  case room =>
    exact ⟨_, pushThenGo_of_room 2 (resolve s a) (s.pcPlus 2) s hroom, rfl, rfl, fun _ => rfl, sameMem_of_mem_eq rfl,
      rfl, rfl, rfl, rfl⟩

/-- Settles O22: `pop` is the write of the top through the destination, from the state without the top. -/
theorem popResult : Obligations.PopResult := by
  refine fun a s => ⟨rfl, fun l v hstack => ?top, exec_pop_of_nil a s⟩
  case top =>
    obtain ⟨hassigns, hpc, hmem, hl, hrest⟩ := onlyAssigns_assign_advance a v 2 (s.setStack l)
    exact ⟨_, exec_pop_of_append a s l v hstack, hassigns, hl, hpc, hmem, hrest⟩

/-- Settles O47: the push leaves a stack with the value on top, which the pop takes off; the frames compose. -/
theorem pushThenPopGivesTheValue : Obligations.PushThenPopGivesTheValue := by
  intro a b s hroom
  obtain ⟨-, hpush, -⟩ := pushResult a s
  obtain ⟨t, ht, hstack, -, hregs, hmem, hrest⟩ := hpush hroom
  obtain ⟨-, hpop, -⟩ := popResult b t
  obtain ⟨u, hu, hassigns, hstack', -, hmem', hrest'⟩ := hpop s.stack (resolve s a) hstack
  exact ⟨t, u, ht, hu, assigns_of_sameRegs hregs hassigns, hstack', sameMem_trans hmem hmem',
    sameRest_trans hrest hrest'⟩

end Sys2Proof.Proofs.MoveStack
end

section
/-! SUPPORT. The comparisons (43_compare.md R180, R181): the number of the word that `eq` and `gt` write, and the frame
of each, which is that of any write through a destination. -/

namespace Sys2Proof.Proofs.Compare

open Sys2Proof.Machine Sys2Proof.Safety Sys2Proof.Proofs.Effects

/-- The word of a comparison, as a number, is 1 where the condition holds and 0 where it does not. -/
theorem toNat_truthWord_decide (p : Prop) [Decidable p] : (truthWord (decide p)).toNat = if p then 1 else 0 := by
  by_cases h : p
  · rw [decide_eq_true h, if_pos h]
    rfl
  · rw [decide_eq_false h, if_neg h]
    rfl

theorem toNat_eqWord (x y : Word) : (eqWord x y).toNat = if x = y then 1 else 0 := toNat_truthWord_decide (x = y)

theorem toNat_gtWord (x y : Word) : (gtWord x y).toNat = if x.toNat > y.toNat then 1 else 0 :=
  toNat_truthWord_decide (x.toNat > y.toNat)

/-- The effect of `assign(a, v); pc <- next`, where the number of the word `v` is known. -/
theorem onlyAssigns_of_toNat_eq {v : Word} {n : Nat} (h : v.toNat = n) (a : Operand) (size : Nat) (s : State) :
    OnlyAssigns a n size s ((assign s a v).advance size) :=
  h ▸ onlyAssigns_assign_advance a v size s

/-- Settles O23: `eq` writes the word of the comparison through its destination and advances by four words. -/
theorem eqResult : Obligations.EqResult :=
  fun a b c s => ⟨rfl, (assign s a (eqWord (resolve s b) (resolve s c))).advance 4, rfl,
    onlyAssigns_of_toNat_eq (toNat_eqWord _ _) a 4 s⟩

/-- Settles O24: `gt` writes the word of the comparison through its destination and advances by four words. -/
theorem gtResult : Obligations.GtResult :=
  fun a b c s => ⟨rfl, (assign s a (gtWord (resolve s b) (resolve s c))).advance 4, rfl,
    onlyAssigns_of_toNat_eq (toNat_gtWord _ _) a 4 s⟩

end Sys2Proof.Proofs.Compare
end

section
/-! SUPPORT. The control transfers (44_control_transfer.md R190 to R194): `jmp`, `jt` and `jf` set the pointer alone;
`call` and `ret` set the pointer and replace the stack; and `ret` after `call` composed from the two. -/

namespace Sys2Proof.Proofs.ControlTransfer

open Sys2Proof.Machine Sys2Proof.Safety Sys2Proof.Proofs.Effects
open Sys2Proof.Proofs.MoveStack (pushThenGo_of_room pushThenGo_of_limit)

theorem sameRegs_trans {s t u : State} (hst : SameRegs s t) (htu : SameRegs t u) : SameRegs s u :=
  fun r => (htu r).trans (hst r)

/-- The frame of a transfer through the stack: the pointer and the stack are all that changes. -/
theorem setStack_setPc_frame (s : State) (l : List Word) (v : Word) :
    SameRegs s ((s.setStack l).setPc v) ∧ SameMem s ((s.setStack l).setPc v) ∧ SameRest s ((s.setStack l).setPc v) :=
  ⟨State.setPc_reg (s.setStack l) v, sameMem_of_mem_eq (State.setPc_mem (s.setStack l) v),
    State.setPc_status (s.setStack l) v, State.setPc_outTrace (s.setStack l) v,
    State.setPc_terminal (s.setStack l) v, State.setPc_stackLimit (s.setStack l) v⟩

/-- The frame of a jump: the pointer is all that changes. -/
theorem setPc_frame (s : State) (v : Word) :
    SameRegs s (s.setPc v) ∧ SameMem s (s.setPc v) ∧ (s.setPc v).stack = s.stack ∧ SameRest s (s.setPc v) := by
  obtain ⟨hregs, hmem, hrest⟩ := setStack_setPc_frame s s.stack v
  exact ⟨hregs, hmem, State.setPc_stack s v, hrest⟩

/-! ### What each instruction answers -/

theorem isNonZero_iff (x : Word) : isNonZero x = true ↔ x ≠ 0 := decide_eq_true_iff

theorem not_isNonZero_iff (x : Word) : (!isNonZero x) = true ↔ x = 0 := by
  rw [Bool.not_eq_true', ← Bool.not_eq_true, isNonZero_iff, not_not]

/-- Taken or not, a conditional branch sets the pointer and nothing else. -/
theorem branchIf_eq_setPc (taken : Bool) (target : Word) (s : State) :
    branchIf taken target s = .next (s.setPc (if taken then target else s.pc + 3)) := by
  cases taken
  case true => rfl
  case false => rfl

theorem exec_jmp (a : Operand) (s : State) : exec (.jmp a) s = .next (s.setPc (resolve s a)) := rfl

theorem exec_jt (a b : Operand) (s : State) :
    exec (.jt a b) s = .next (s.setPc (if resolve s a ≠ 0 then resolve s b else s.pc + 3)) := by
  have hbranch := branchIf_eq_setPc (isNonZero (resolve s a)) (resolve s b) s
  simp only [isNonZero_iff] at hbranch
  exact hbranch

theorem exec_jf (a b : Operand) (s : State) :
    exec (.jf a b) s = .next (s.setPc (if resolve s a = 0 then resolve s b else s.pc + 3)) := by
  have hbranch := branchIf_eq_setPc (!isNonZero (resolve s a)) (resolve s b) s
  simp only [not_isNonZero_iff] at hbranch
  exact hbranch

theorem exec_call_of_room (a : Operand) (s : State) (h : s.stackLimit ≠ some s.stack.length) :
    exec (.call a) s = .next ((s.setStack (s.stack ++ [s.pc + 2])).setPc (resolve s a)) :=
  pushThenGo_of_room 17 (s.pcPlus 2) (resolve s a) s h

theorem exec_call_of_limit (a : Operand) (s : State) (h : s.stackLimit = some s.stack.length) :
    exec (.call a) s = .next (faultedState s .stackOverflow s.pc (some 17)) :=
  pushThenGo_of_limit 17 (s.pcPlus 2) (resolve s a) s h

theorem exec_ret_of_append (s : State) (l : List Word) (v : Word) (h : s.stack = l ++ [v]) :
    exec .ret s = .next ((s.setStack l).setPc v) := by
  simp only [exec, execRet, popped_append s l v h]

theorem exec_ret_of_nil (s : State) (h : s.stack = []) : exec .ret s = .next (s.setStatus .halted) := by
  simp only [exec, execRet, popped_nil s h]

/-! ### The obligations -/

/-- Settles O25: `jmp` sets the pointer to the resolved word, whatever it is. -/
theorem jmpResult : Obligations.JmpResult :=
  fun a s => ⟨rfl, s.setPc (resolve s a), exec_jmp a s, rfl, setPc_frame s _⟩

/-- Settles O26: `jt` sets the pointer alone, to the target unless the condition resolves to 0. -/
theorem jtResult : Obligations.JtResult :=
  fun a b s => ⟨rfl, _, exec_jt a b s, rfl, setPc_frame s _⟩

/-- Settles O27: `jf` sets the pointer alone, to the target if the condition resolves to 0. -/
theorem jfResult : Obligations.JfResult :=
  fun a b s => ⟨rfl, _, exec_jf a b s, rfl, setPc_frame s _⟩

/-- Settles O37: with a word on top `ret` is a transfer through the stack; on an empty stack it sets the status
alone. -/
theorem retResult : Obligations.RetResult := by
  refine ⟨rfl, fun s => ⟨fun l v hstack => ?top, exec_ret_of_nil s⟩⟩
  case top =>
    exact ⟨(s.setStack l).setPc v, exec_ret_of_append s l v hstack, rfl, rfl, setStack_setPc_frame s l v⟩

/-- Settles O36: with room `call` leaves the return address on top, which `ret` takes off as the pointer; the frames
compose. At the limit the fault sets the status alone. -/
theorem callResult : Obligations.CallResult := by
  refine fun a s => ⟨rfl, fun hroom => ?room, exec_call_of_limit a s⟩
  case room =>
    obtain ⟨hregs, hmem, hrest⟩ := setStack_setPc_frame s (s.stack ++ [s.pc + 2]) (resolve s a)
    obtain ⟨-, hret⟩ := retResult
    obtain ⟨hpop, -⟩ := hret ((s.setStack (s.stack ++ [s.pc + 2])).setPc (resolve s a))
    obtain ⟨u, hu, hpc, hstack, hregs', hmem', hrest'⟩ := hpop s.stack (s.pc + 2) rfl
    exact ⟨_, exec_call_of_room a s hroom, rfl, rfl, hregs, hmem, hrest, u, hu, hpc, hstack,
      sameRegs_trans hregs hregs', sameMem_trans hmem hmem', sameRest_trans hrest hrest'⟩

end Sys2Proof.Proofs.ControlTransfer
end

section
/-! SUPPORT. The arithmetic and the logic (45_arith_logic.md R210 to R215): the number of the word that each
instruction writes, and the frame of each, which is that of any write through a destination. -/

namespace Sys2Proof.Proofs.ArithLogic

open Sys2Proof.Machine Sys2Proof.Safety Sys2Proof.Proofs.Effects
open Sys2Proof.Proofs.Compare (onlyAssigns_of_toNat_eq)
open Sys2Proof.Proofs.Bounded (execMod_of_ne_zero)

/-! ### The number of each result -/

/-- A number reduced modulo 32768 fits into a word (45_arith_logic.md R209). -/
theorem toNat_ofNat_mod_arithModulus (n : Nat) :
    (BitVec.ofNat 16 (n % Config.arithModulus)).toNat = n % 32768 := by
  have hlt : n % 32768 < 2 ^ 16 := (Nat.mod_lt n (by decide)).trans (by decide)
  rw [BitVec.toNat_ofNat, Nat.mod_eq_of_lt hlt]

theorem toNat_addWord (x y : Word) : (addWord x y).toNat = (x.toNat + y.toNat) % 32768 :=
  toNat_ofNat_mod_arithModulus (x.toNat + y.toNat)

theorem toNat_multWord (x y : Word) : (multWord x y).toNat = (x.toNat * y.toNat) % 32768 :=
  toNat_ofNat_mod_arithModulus (x.toNat * y.toNat)

/-- The remainder is at most the dividend, so the word holds it. -/
theorem toNat_modWord (x y : Word) : (modWord x y).toNat = x.toNat % y.toNat :=
  Nat.mod_eq_of_lt ((Nat.mod_le x.toNat y.toNat).trans_lt x.isLt)

/-- The mask keeps the low 15 bits of the complement `65535 - x` (45_arith_logic.md R215). -/
theorem toNat_notWord (x : Word) : (notWord x).toNat = 32767 - x.toNat % 32768 := by
  have hmask : (notWord x).toNat = (65535 - x.toNat) % 32768 := by
    rw [notWord, BitVec.toNat_and, BitVec.toNat_not]
    exact Nat.and_two_pow_sub_one_eq_mod (65535 - x.toNat) 15
  have hx : x.toNat < 65536 := x.isLt
  omega

/-- On 0..=32767 the complement is an involution (45_arith_logic.md R215). -/
theorem notWord_notWord (x : Word) (h : x.toNat ≤ 32767) : notWord (notWord x) = x := by
  apply BitVec.eq_of_toNat_eq
  rw [toNat_notWord, toNat_notWord]
  omega

/-! ### What each instruction answers -/

theorem exec_mod_of_ne_zero (a b c : Operand) (s : State) (h : resolve s c ≠ 0) :
    exec (.mod a b c) s = .next ((assign s a (modWord (resolve s b) (resolve s c))).advance 4) :=
  execMod_of_ne_zero a b c s h

theorem exec_mod_of_eq_zero (a b c : Operand) (s : State) (h : resolve s c = 0) :
    exec (.mod a b c) s = .next (faultedState s .modByZero s.pc (some 11)) :=
  if_pos h

theorem exec_not (a b : Operand) (s : State) :
    exec (.not a b) s = .next ((assign s a (notWord (resolve s b))).advance 3) := rfl

/-- The first `not` leaves the complement in `r`, and a second one takes it from there into `q`. -/
theorem reg_of_not_twice (r q : Reg) (b : Operand) (s : State) (h : (resolve s b).toNat ≤ 32767) :
    ∃ u, exec (.not (.reg q) (.reg r)) ((assign s (.reg r) (notWord (resolve s b))).advance 3) = .next u ∧
      u.reg q = resolve s b := by
  refine ⟨_, exec_not (.reg q) (.reg r) _, ?back⟩
  case back =>
    simp only [State.advance_reg, assign_reg, resolve_reg, if_true]
    exact notWord_notWord (resolve s b) h

/-! ### The obligations -/

/-- Settles O28: `add` writes the reduced sum through its destination and advances by four words. -/
theorem addResult : Obligations.AddResult :=
  fun a b c s => ⟨rfl, (assign s a (addWord (resolve s b) (resolve s c))).advance 4, rfl,
    onlyAssigns_of_toNat_eq (toNat_addWord _ _) a 4 s⟩

/-- Settles O29: `mult` writes the reduced product through its destination and advances by four words. -/
theorem multResult : Obligations.MultResult :=
  fun a b c s => ⟨rfl, (assign s a (multWord (resolve s b) (resolve s c))).advance 4, rfl,
    onlyAssigns_of_toNat_eq (toNat_multWord _ _) a 4 s⟩

/-- Settles O30: with a divisor other than 0 `mod` writes the remainder through its destination; on 0 the fault sets
the status alone. -/
theorem modResult : Obligations.ModResult := by
  refine fun a b c s => ⟨rfl, fun hne => ?remainder, exec_mod_of_eq_zero a b c s⟩
  case remainder =>
    exact ⟨_, exec_mod_of_ne_zero a b c s hne, onlyAssigns_of_toNat_eq (toNat_modWord _ _) a 4 s⟩

/-- Settles O31: `and` writes the conjunction of the full words through its destination. -/
theorem andResult : Obligations.AndResult :=
  fun a b c s => ⟨rfl, (assign s a (resolve s b &&& resolve s c)).advance 4, rfl,
    onlyAssigns_of_toNat_eq (BitVec.toNat_and _ _) a 4 s⟩

/-- Settles O32: `or` writes the disjunction of the full words through its destination. -/
theorem orResult : Obligations.OrResult :=
  fun a b c s => ⟨rfl, (assign s a (resolve s b ||| resolve s c)).advance 4, rfl,
    onlyAssigns_of_toNat_eq (BitVec.toNat_or _ _) a 4 s⟩

/-- Settles O33: `not` writes the complement through its destination; where that is a register, a second `not` of it
gives the value back. -/
theorem notResult : Obligations.NotResult := by
  refine fun a b s => ⟨rfl, (assign s a (notWord (resolve s b))).advance 3, exec_not a b s,
    onlyAssigns_of_toNat_eq (toNat_notWord _) a 3 s, ?twice⟩
  case twice =>
    rintro r q rfl hle
    exact reg_of_not_twice r q b s hle

end Sys2Proof.Proofs.ArithLogic
end

section
/-! SUPPORT. The memory access (46_memory_access.md R240, R241): what `rmem` and `wmem` answer below address 32768 and
from there on, and the frame of `wmem`, which is all but the stored word and the pointer. -/

namespace Sys2Proof.Proofs.MemoryAccess

open Sys2Proof.Machine Sys2Proof.Safety Sys2Proof.Proofs.Effects
open Sys2Proof.Proofs.StoredWord (holdsWord_of_writeWord)

/-- The state that `wmem` completes with (46_memory_access.md R241): the word stored, the pointer advanced. -/
def stored (addr v : Word) (s : State) : State := (s.setMem (Memory.writeWord s.mem addr.toNat v)).advance 3

/-! ### What each instruction answers -/

theorem exec_rmem_of_lt (a b : Operand) (s : State) (h : (resolve s b).toNat < 32768) :
    exec (.rmem a b) s = .next ((assign s a (Memory.readWord s.mem (resolve s b).toNat)).advance 3) := by
  have hread := (memRead_eq_some s (resolve s b) _).2 ⟨h, rfl⟩
  simp only [exec, execRmem, hread]
  rfl

theorem exec_rmem_of_ge (a b : Operand) (s : State) (h : 32768 ≤ (resolve s b).toNat) :
    exec (.rmem a b) s = .next (faultedState s .memoryOutOfRange (resolve s b) none) := by
  have hread := (memRead_eq_none s (resolve s b)).2 h
  simp only [exec, execRmem, hread]
  rfl

theorem exec_wmem_of_lt (a b : Operand) (s : State) (h : (resolve s a).toNat < 32768) :
    exec (.wmem a b) s = .next (stored (resolve s a) (resolve s b) s) := by
  have hwrite := (memWrite_eq_some s (resolve s a) (resolve s b) _).2 ⟨h, rfl⟩
  simp only [exec, execWmem, hwrite]
  rfl

theorem exec_wmem_of_ge (a b : Operand) (s : State) (h : 32768 ≤ (resolve s a).toNat) :
    exec (.wmem a b) s = .next (faultedState s .memoryOutOfRange (resolve s a) none) := by
  have hwrite := (memWrite_eq_none s (resolve s a) (resolve s b)).2 h
  simp only [exec, execWmem, hwrite]
  rfl

/-! ### The effect of a store -/

/-- The word stored reads back (20_memory.md R61). -/
theorem readWord_stored (addr v : Word) (s : State) (hwf : Memory.wf s.mem = true) (hlt : addr.toNat < 32768) :
    Memory.readWord (stored addr v s).mem addr.toNat = v := by
  obtain ⟨-, hread⟩ := holdsWord_of_writeWord addr.toNat v s (stored addr v s) hwf hlt rfl
  exact hread

/-- Every byte outside the word stored is as before (20_memory.md R53). -/
theorem readByte_stored (addr v : Word) (s : State) (hwf : Memory.wf s.mem = true) (hlt : addr.toNat < 32768) (k : Nat)
    (hlow : k ≠ 2 * addr.toNat) (hhigh : k ≠ 2 * addr.toNat + 1) :
    Memory.readByte (stored addr v s).mem k = Memory.readByte s.mem k := by
  have hwrite := Memory.readByte_writeWord s.mem addr.toNat v k hwf hlt
  rwa [if_neg hlow, if_neg hhigh] at hwrite

/-- A store advances the pointer and leaves everything outside memory. -/
theorem stored_frame (addr v : Word) (s : State) :
    Advances 3 s (stored addr v s) ∧ SameRegs s (stored addr v s) ∧ (stored addr v s).stack = s.stack ∧
      SameRest s (stored addr v s) :=
  ⟨rfl, fun _ => rfl, rfl, rfl, rfl, rfl, rfl⟩

/-! ### The obligations -/

/-- Settles O35: below 32768 `wmem` stores the word, which reads back and leaves the other bytes and the rest; from
32768 on the fault sets the status alone. -/
theorem wmemResult : Obligations.WmemResult := by
  refine fun a b s => ⟨rfl, fun hwf hlt => ?inside, exec_wmem_of_ge a b s⟩
  case inside =>
    exact ⟨stored (resolve s a) (resolve s b) s, exec_wmem_of_lt a b s hlt, readWord_stored _ _ s hwf hlt,
      readByte_stored _ _ s hwf hlt, stored_frame _ _ s⟩

/-- Settles O34: below 32768 `rmem` writes the word read through its destination; from 32768 on the fault sets the
status alone, whatever the destination. -/
theorem rmemResult : Obligations.RmemResult := by
  refine fun a b s => ⟨rfl, fun hlt => ?inside, exec_rmem_of_ge a b s⟩
  case inside =>
    exact ⟨_, exec_rmem_of_lt a b s hlt, onlyAssigns_assign_advance a _ 3 s⟩

end Sys2Proof.Proofs.MemoryAccess
end

section
/-! SUPPORT. Decoding read backwards (30_encoding.md R83, R91), and the word sequences the spec writes out. -/

namespace Sys2Proof.Proofs.Decoding

open Sys2Proof.Proofs.Fetch (decodeWords_ok)
open Sys2Proof.Proofs.Encoding (decodeWords_encode)

/-- Settles O3: the opcode's row and each operand it reads give back the words they were read from. -/
theorem decodedWordsAreTheEncoding : Obligations.DecodedWordsAreTheEncoding := decodeWords_ok

/-- Settles O1: the nine instructions are read from their encodings, and the four refusals are those of the first bad
word. -/
theorem specWordsDecode : Obligations.SpecWordsDecode :=
  ⟨decodeWords_encode (.add (.reg 3) (.reg 2) (.lit 37)) [] rfl,
    decodeWords_encode (.set (.reg 7) (.lit 5)) [] rfl, rfl, decodeWords_encode .noop [] rfl, rfl, rfl, rfl, decodeWords_encode (.set (.lit 5) (.lit 7)) [] rfl,
    decodeWords_encode (.gt (.reg 2) (.lit 10) (.lit 3)) [] rfl, decodeWords_encode (.jt (.reg 0) (.lit 50)) [] rfl,
    decodeWords_encode (.wmem (.lit 100) (.reg 1)) [] rfl, decodeWords_encode (.inp (.reg 0)) [] rfl, rfl⟩

end Sys2Proof.Proofs.Decoding
end

section
/-! SUPPORT. The character ports (47_io.md R250 to R253): what `out` and `in` answer and their frames, and the echo of
buffered characters, composed from the two. -/

namespace Sys2Proof.Proofs.CharIO

open Sys2Proof.Machine Sys2Proof.Safety Sys2Proof.Proofs.Effects
open Sys2Proof.Proofs.Loop (execIn_of_read_none)

theorem exec_out (a : Operand) (s : State) : exec (.out a) s = .next ((outWrite s (resolve s a)).advance 2) := rfl

/-- With a character `in` writes its code through the destination (47_io.md R252). -/
theorem exec_inp_of_read_some (a : Operand) (s : State) (c : Char) (u : Terminal) (h : s.terminal.read = (some c, u)) :
    exec (.inp a) s = .next ((assign (s.setTerminal u) a (charCode c)).advance 2) := by
  simp only [exec, execIn, inRead, h]
  rfl

/-- Without a character `in` changes the terminal alone (47_io.md R252). -/
theorem exec_inp_of_read_none (a : Operand) (s : State) (u : Terminal) (h : s.terminal.read = (none, u)) :
    exec (.inp a) s = .next (s.setTerminal u) := by
  have hin := execIn_of_read_none a s (by rw [h])
  rwa [h] at hin

/-- Settles O38: the word goes to the trace and to the terminal, which leaves every other field but the pointer. -/
theorem outResult : Obligations.OutResult :=
  fun a s => ⟨rfl, _, exec_out a s, rfl, rfl, rfl, outWrite_reg s (resolve s a), sameMem_of_mem_eq rfl, rfl, rfl, rfl⟩

/-- Settles O39: with a character `in` is the write of its code through the destination, from the state with the
terminal as read; without one that state is all it answers. -/
theorem inResult : Obligations.InResult := by
  refine fun a s => ⟨rfl, fun c u hread => ?character, exec_inp_of_read_none a s⟩
  case character =>
    obtain ⟨hassigns, hpc, hmem, hstack, hstatus, htrace, hterm, hlimit⟩ :=
      onlyAssigns_assign_advance a (charCode c) 2 (s.setTerminal u)
    exact ⟨_, exec_inp_of_read_some a s c u hread, hassigns, hpc, hmem, hstack, hstatus, htrace, hterm, hlimit⟩

theorem echoPairs_of_exec (r : Reg) (n : Nat) (s t u : State) (hin : exec (.inp (.reg r)) s = .next t)
    (hout : exec (.out (.reg r)) t = .next u) : echoPairs r (n + 1) s = echoPairs r n u := by
  simp only [echoPairs, hin, hout]

/-- One `in` and `out` of a register: the next character's code is appended to the trace and to the accumulator, and
the other pairs follow. -/
theorem echoPairs_succ (r : Reg) (n : Nat) (s : State) (c : Char) (cs : List Char) (h : s.terminal.inBuf = c :: cs) :
    ∃ u, echoPairs r (n + 1) s = echoPairs r n u ∧ u.outTrace = s.outTrace ++ [charCode c] ∧
      u.terminal.outAccum = s.terminal.outAccum ++ [charCode c] ∧ u.terminal.inBuf = cs := by
  have hin := exec_inp_of_read_some (.reg r) s c _ (read_buffered s.terminal c cs h)
  refine ⟨_, echoPairs_of_exec r n s _ _ hin (exec_out (.reg r) _), ?trace, ?accum, ?buffer⟩
  case trace => simp
  case accum => simp [Terminal.write]
  case buffer => simp [Terminal.write]

/-- Settles O53: by induction on the characters, one pair each. -/
theorem echoReturnsTheCharacters : Obligations.EchoReturnsTheCharacters := by
  intro r cs rest s h
  induction cs generalizing s with
  | nil => exact ⟨s, rfl, by simp, by simp, h⟩
  | cons c cs ih =>
    obtain ⟨u, hpair, htrace, haccum, hbuf⟩ := echoPairs_succ r cs.length s c (cs ++ rest) h
    obtain ⟨t, hrest, htrace', haccum', hbuf'⟩ := ih u hbuf
    refine ⟨t, hpair.trans hrest, ?trace, ?accum, hbuf'⟩
    case trace => simp [htrace', htrace]
    case accum => simp [haccum', haccum]

end Sys2Proof.Proofs.CharIO
end

section
/-! SUPPORT. The terminal's lines (60_exceptions.md R331 to R334): a buffer is read from its front, a line that is
pulled becomes the buffer, and an escape line switches the mode in its place. -/

namespace Sys2Proof.Proofs.Lines

open Sys2Proof.Machine Sys2Proof.Safety
open Sys2Proof.Proofs.CharIO (exec_inp_of_read_none)

/-- As many reads as there are characters buffered give them in order, and nothing else changes. -/
theorem readMany_buffered (cs : List Char) (t : Terminal) (h : t.inBuf = cs) :
    readMany cs.length t = (cs.map some, { t with inBuf := [] }) := by
  induction cs generalizing t with
  | nil =>
    have hsame : ({ t with inBuf := [] } : Terminal) = t := by rw [← h]
    rw [hsame]
    rfl
  | cons c cs ih =>
    have hrest := ih { t with inBuf := cs } rfl
    simp [readMany, read_buffered t c cs h, hrest]

/-- The terminal that has pulled a line into its buffer. -/
def pulled (t : Terminal) (line : List Char) : Terminal := { t.dropLine with inBuf := lineText line }

/-- The read that pulls a line is the first read of the buffer it becomes. -/
theorem read_eq_read_pulled (t : Terminal) (line : List Char) (rest : List (List Char)) (hbuf : t.inBuf = [])
    (hmode : t.mode = .normal) (hlines : t.source.lines = line :: rest) (hesc : t.isEscapeLine line = false) :
    t.read = (pulled t line).read := by
  have htake : t.takeLine line = (pulled t line).popChar := by simp [Terminal.takeLine, hesc, pulled]
  have hread : (pulled t line).read = (pulled t line).popChar := by
    cases line <;> rfl
  rw [read_pull t line rest hbuf hmode hlines, htake, hread]

/-- Settles O50: the reads are those of the buffer the line becomes, its newline last. -/
theorem lineIsDeliveredInOrder : Obligations.LineIsDeliveredInOrder := by
  intro t line rest hbuf hmode hlines hesc
  have hlen : (lineText line).length = line.length + 1 := by simp [lineText]
  have hfirst : readMany (line.length + 1) t = readMany (line.length + 1) (pulled t line) := by
    simp only [readMany, read_eq_read_pulled t line rest hbuf hmode hlines hesc]
  have hafter : ({ pulled t line with inBuf := [] } : Terminal) =
      { t with source := { t.source with lines := rest } } := by
    simp [pulled, Terminal.dropLine, hlines, hbuf]
  rw [hfirst, ← hlen, readMany_buffered (lineText line) (pulled t line) rfl, hafter, lineText]

/-- The read that pulls an escape line gives no character (60_exceptions.md R334). -/
theorem read_escapeLine (t : Terminal) (line : List Char) (rest : List (List Char)) (hbuf : t.inBuf = [])
    (hmode : t.mode = .normal) (hlines : t.source.lines = line :: rest) (hesc : t.escapeMarker <+: line) :
    t.read = (none, { t with source := { t.source with lines := rest }, mode := .debug }) := by
  have hescape : t.isEscapeLine line = true :=
    List.isPrefixOf_iff_prefix.2 (hesc.trans (List.prefix_append line ['\n']))
  rw [read_pull t line rest hbuf hmode hlines, Terminal.takeLine, if_pos hescape, Terminal.dropLine, hlines,
    List.tail_cons]

/-- Settles O51: the `in` finds no character, so it changes the terminal alone, and `quit` sets the mode. -/
theorem escapeLineDeliversNothing : Obligations.EscapeLineDeliversNothing :=
  fun a s line rest hbuf hmode hlines hesc =>
    ⟨_, exec_inp_of_read_none a s _ (read_escapeLine s.terminal line rest hbuf hmode hlines hesc), rfl, rfl⟩

end Sys2Proof.Proofs.Lines
end

section
/-! SUPPORT. The host between two instructions (60_exceptions.md R340, R342): its acts keep the invariant, and the
debugger's commands write what they name. -/

namespace Sys2Proof.Proofs.HostActs

open Sys2Proof.Machine Sys2Proof.Safety Sys2Proof.Proofs.Effects
open Sys2Proof.Proofs.StepInvariant (stackWithinLimit_iff)

/-! ### The invariant -/

theorem hostWrite_keeps_invariant (addr v : Word) (s t : State) (hinv : Invariant s)
    (h : hostWrite addr v s = some t) : Invariant t := by
  obtain ⟨-, hlt, rfl⟩ := (hostWrite_eq_some addr v s t).1 h
  obtain ⟨hwf, hwithin⟩ := hinv
  exact ⟨Memory.wf_writeWord s.mem _ v hlt hwf, hwithin⟩

theorem applyRequest_keeps_invariant (r : DebugRequest) (s t : State) (hinv : Invariant s)
    (h : applyRequest r s = some t) : Invariant t := by
  cases r with
  | nothing | breakpoint a | verbosity on | quit => cases h; exact hinv
  | setReg r v =>
    obtain ⟨-, rfl⟩ := (whileRunning_eq_some s _ t).1 h
    exact hinv
  | setMem addr v => exact hostWrite_keeps_invariant addr v s t hinv h

/-- Settles O17: the acts on the terminal and on the registers leave memory and the stack, a write goes to an address
inside memory, and a restore brings what meets the invariant. -/
theorem hostEventsKeepTheInvariant : Obligations.HostEventsKeepTheInvariant := by
  intro e s t hinv h hsaved
  cases e with
  | inputLine line | setSource kind lines | closeSource | drainOutput | stop => cases h; exact hinv
  | resume =>
    obtain ⟨-, rfl⟩ := (whileRunning_eq_some s s t).1 h
    exact hinv
  | debug r => exact applyRequest_keeps_invariant r s t hinv h
  | patch addr v => exact hostWrite_keeps_invariant addr v s t hinv h
  | restore v =>
    obtain ⟨hwf, hlen⟩ := hsaved v rfl
    cases h
    exact ⟨hwf, (stackWithinLimit_iff _).2 hlen⟩

/-! ### The debugger's commands -/

/-- `setr` of a register that exists writes it, while Running (60_exceptions.md R340, D19). -/
theorem applyRequest_setr (x v : Word) (r : Reg) (s : State) (hs : s.status = .running) (hx : x.toNat = r.val) :
    applyRequest (debugRequest (.setr x v)) s = some (s.setReg r v) := by
  have hlt : x.toNat < Config.numRegs := hx ▸ r.isLt
  have hreg : (⟨x.toNat, hlt⟩ : Reg) = r := Fin.ext hx
  simp only [debugRequest, dif_pos hlt, hreg, applyRequest, whileRunning, if_pos hs]

theorem applyRequest_setr_of_ge (x v : Word) (s : State) (hx : 8 ≤ x.toNat) :
    applyRequest (debugRequest (.setr x v)) s = some s := by
  simp only [debugRequest, dif_neg (Nat.not_lt.2 hx), applyRequest]

/-- `setm` of an address inside memory stores the word there, while Running (60_exceptions.md R340, D19). -/
theorem applyRequest_setm (x v : Word) (s : State) (hs : s.status = .running) (hx : x.toNat < 32768) :
    applyRequest (debugRequest (.setm x v)) s = some (s.setMem (Memory.writeWord s.mem x.toNat v)) := by
  simp only [debugRequest, if_pos hx, applyRequest]
  exact (hostWrite_eq_some x v s _).2 ⟨hs, hx, rfl⟩

theorem applyRequest_setm_of_ge (x v : Word) (s : State) (hx : 32768 ≤ x.toNat) :
    applyRequest (debugRequest (.setm x v)) s = some s := by
  simp only [debugRequest, if_neg (Nat.not_lt.2 hx), applyRequest]

/-- Writing a register has the effect of a write through it as a destination. -/
theorem assigns_setReg (s : State) (r : Reg) (v : Word) : Assigns (.reg r) v.toNat s (s.setReg r v) := by
  obtain ⟨hassigns, -⟩ := onlyAssigns_assign_advance (.reg r) v 0 s
  exact hassigns

/-- Settles O56: `setr` and `setm` request one write of what they name, and the other commands none. -/
theorem debuggerWritesOnlyWhatItNames : Obligations.DebuggerWritesOnlyWhatItNames := by
  intro s x v hs hwf
  refine ⟨?setr, applyRequest_setr_of_ge x v s, ?setm, applyRequest_setm_of_ge x v s, ?prints, _, rfl, rfl, rfl⟩
  case setr =>
    intro r hx
    exact ⟨_, applyRequest_setr x v r s hs hx, assigns_setReg s r v, sameMem_of_mem_eq rfl, rfl, rfl, rfl, rfl, rfl,
      rfl⟩
  case setm =>
    intro hx
    have hread (n : Nat) := Memory.readWord_writeWord s.mem x.toNat v n hwf hx
    exact ⟨_, applyRequest_setm x v s hs hx, (hread x.toNat).trans (if_pos rfl),
      fun n hn => (hread n).trans (if_neg hn), fun _ => rfl, rfl, rfl, rfl, rfl, rfl, rfl⟩
  case prints =>
    simp [debugRequest, applyRequest]

end Sys2Proof.Proofs.HostActs
end

section
/-! SUPPORT. The faults of a step (60_exceptions.md R302, R304): the record names the pointer, an address, and the word
memory holds there, whether the fault is one of the decode or one of the execution. -/

namespace Sys2Proof.Proofs.Faults

open Sys2Proof.Machine Sys2Proof.Safety Sys2Proof.Proofs.SpecDecoder
open Sys2Proof.Proofs.Fetch (fetch_ok decodeWords_ok toNat_pcPlus)

/-- The record names the pointer and the offending word as memory holds it, or an address outside memory. -/
inductive NamesOffender (s : State) : FaultRecord → Prop
  | opcode {c : FaultCause} (hc : c = .invalidOpcode ∨ c = .stackUnderflow ∨ c = .modByZero ∨ c = .stackOverflow) :
      NamesOffender s ⟨c, s.pc, s.pc, some (Memory.readWord s.mem s.pc.toNat)⟩
  | operand {addr : Word} (k : Nat) (hpos : 1 ≤ k) (hle : k ≤ 3) (haddr : addr.toNat = s.pc.toNat + k) :
      NamesOffender s ⟨.invalidOperand, s.pc, addr, some (Memory.readWord s.mem (s.pc.toNat + k))⟩
  | outside {addr : Word} (hge : 32768 ≤ addr.toNat) : NamesOffender s ⟨.memoryOutOfRange, s.pc, addr, none⟩

/-! ### The faults of the decode -/

/-- An operand word is absent at an address outside memory, or it is the word in memory at its place. -/
theorem namesOffender_of_operandsAt (s : State) (k n : Nat) (r : FaultRecord) (hpc : s.pc.toNat < 32768) (hk : 1 ≤ k)
    (hmax : k + n ≤ 4) (h : operandsAt s k n = .error r) : NamesOffender s r := by
  induction n generalizing k with
  | zero => cases h
  | succ n ih =>
    have haddr : (s.pc + BitVec.ofNat 16 k).toNat = s.pc.toNat + k := toNat_pcPlus s k (by omega)
    simp only [operandsAt] at h
    split at h
    · next hread =>
      cases h
      exact .outside ((memRead_eq_none s _).1 hread)
    · next w hread =>
      obtain ⟨-, rfl⟩ := (memRead_eq_some s _ w).1 hread
      split at h
      · cases h
        rw [haddr]
        exact .operand k hk (by omega) haddr
      · split at h
        · next hrest =>
          cases h
          exact ih (k + 1) (by omega) (by omega) hrest
        · cases h

theorem operandCount_le (op : Nat) : operandCount op ≤ 3 := by
  unfold operandCount
  split_ifs <;> omega

theorem namesOffender_of_decodeAtPc (s : State) (r : FaultRecord) (h : decodeAtPc s = .error r) :
    NamesOffender s r := by
  simp only [decodeAtPc] at h
  split at h
  · next hread =>
    cases h
    exact .outside ((memRead_eq_none s _).1 hread)
  · next op hread =>
    obtain ⟨hpc, rfl⟩ := (memRead_eq_some s _ op).1 hread
    split at h
    · cases h
      exact .opcode (.inl rfl)
    · split at h
      · next hoperands =>
        cases h
        have hcount := operandCount_le (Memory.readWord s.mem s.pc.toNat).toNat
        exact namesOffender_of_operandsAt s 1 _ _ hpc le_rfl (by omega) hoperands
      · cases h

/-! ### The faults of the execution -/

/-- A fetched instruction's opcode word is the word in memory at the pointer. -/
theorem opcode_of_fetch (s : State) (i : Instr) (h : fetch s = .ok i) :
    BitVec.ofNat 16 i.opcode = Memory.readWord s.mem s.pc.toNat := by
  obtain ⟨rest, hd⟩ := fetch_ok s i h
  obtain ⟨-, hwords⟩ := decodeWords_ok _ rest i hd
  have hfirst := Memory.window_getElem? s.mem 4 s.pc.toNat 0
  rw [hwords] at hfirst
  simp only [encode, List.cons_append, List.getElem?_cons_zero, Nat.add_zero] at hfirst
  split at hfirst
  · exact Option.some.inj hfirst
  · cases hfirst

/-- An execution of a running core that ends Faulted took its fault: a halt and a completed instruction do not. -/
theorem exec_faults (i : Instr) (s t : State) (r : FaultRecord) (hs : s.status = .running) (hf : fetch s = .ok i)
    (h : exec i s = .next t) (ht : t.status = .faulted r) : t = s.setStatus (.faulted r) ∧ NamesOffender s r := by
  obtain ⟨⟨c, p, addr, w⟩, rfl, -, rfl, hcause⟩ | ⟨-, ⟨-, rfl⟩ | hc⟩ := exec_cases i s t h
  · cases ht
    refine ⟨rfl, ?_⟩
    obtain ⟨rfl, hge, rfl⟩ | ⟨hc, rfl, rfl⟩ := hcause
    · exact .outside hge
    · rw [opcode_of_fetch s i hf]
      exact .opcode (.inr hc)
  · cases ht
  · obtain ⟨-, hstatus, -⟩ := hc
    rw [hstatus, hs] at ht
    cases ht

/-! ### The step -/

theorem step_faults (s t : State) (r : FaultRecord) (hs : s.status = .running) (h : step s = .next t)
    (ht : t.status = .faulted r) : t = s.setStatus (.faulted r) ∧ NamesOffender s r := by
  cases hf : fetch s with
  | ok i => exact exec_faults i s t r hs hf ((step_of_fetch s i hs hf).symm.trans h) ht
  | error e =>
    have hagrees := specAgrees_fetch s
    rw [hf] at hagrees
    rw [step_of_fetch_error s e hs hf, decodeFault_eq_faultRecord e s] at h
    cases h
    cases ht
    exact ⟨rfl, namesOffender_of_decodeAtPc s _ hagrees⟩

/-- Settles O45: a fault sets the status alone, and what its record names is read off its cause. -/
theorem faultsArePrecise : Obligations.FaultsArePrecise := by
  intro s t r hs h ht
  obtain ⟨rfl, hnames⟩ := step_faults s t r hs h ht
  refine ⟨rfl, ?_⟩
  cases hnames with
  | opcode hc => obtain rfl | rfl | rfl | rfl := hc <;> exact ⟨rfl, rfl, rfl⟩
  | operand k hpos hle haddr => exact ⟨rfl, k, hpos, hle, haddr, rfl⟩
  | outside hge => exact ⟨rfl, hge, rfl⟩

end Sys2Proof.Proofs.Faults
end

section
/-! SUPPORT. No step reads the accumulator (60_exceptions.md R335): a step from a drained machine and one from the
machine as it was answer the same, once both are drained. -/

namespace Sys2Proof.Proofs.Drain

open Sys2Proof.Machine

/-- A result with the accumulator of its next state drained. -/
def drainedResult : Result → Result
  | .next t => .next (drainOutput t)
  | .fault f => .fault f
  | .refused r => .refused r

theorem drainedResult_eq_next (res : Result) (v : State) :
    drainedResult res = .next v ↔ ∃ u, res = .next u ∧ drainOutput u = v := by
  cases res <;> simp [drainedResult]

theorem drainedResult_eq_fault (res : Result) (f : Fault) : drainedResult res = .fault f ↔ res = .fault f := by
  cases res <;> simp [drainedResult]

/-! ### The shared operations on a drained machine -/

@[simp] theorem resolve_drainOutput (s : State) (a : Operand) : resolve (drainOutput s) a = resolve s a := by
  cases a <;> rfl

@[simp] theorem pcPlus_drainOutput (s : State) (n : Nat) : (drainOutput s).pcPlus n = s.pcPlus n := rfl

theorem assignThenNext_drainOutput (a : Operand) (v : Word) (n : Nat) (s : State) :
    drainedResult (assignThenNext a v n (drainOutput s)) = drainedResult (assignThenNext a v n s) := by
  cases a <;> rfl

theorem pushThenGo_drainOutput (opcode v target : Word) (s : State) :
    drainedResult (pushThenGo opcode v target (drainOutput s)) = drainedResult (pushThenGo opcode v target s) := by
  have hfull : (drainOutput s).stackFull = s.stackFull := rfl
  rw [pushThenGo, pushThenGo, hfull]
  split <;> rfl

theorem branchIf_drainOutput (taken : Bool) (target : Word) (s : State) :
    drainedResult (branchIf taken target (drainOutput s)) = drainedResult (branchIf taken target s) := by
  cases taken <;> rfl

theorem popped_drainOutput (s : State) : (drainOutput s).popped = s.popped.map (Prod.map id drainOutput) := by
  unfold State.popped
  have hstack : (drainOutput s).stack = s.stack := rfl
  rw [hstack]
  cases s.stack.getLast? <;> rfl

theorem memWrite_drainOutput (s : State) (addr v : Word) :
    memWrite (drainOutput s) addr v = (memWrite s addr v).map drainOutput := by
  unfold memWrite
  split <;> rfl

/-- A read takes the same character from a drained terminal, and leaves it drained. -/
theorem read_drained (t : Terminal) : t.drained.read = (t.read.1, t.read.2.drained) := by
  cases hbuf : t.inBuf with
  | cons c cs => rw [read_buffered t c cs hbuf, read_buffered t.drained c cs hbuf]; rfl
  | nil =>
    cases hmode : t.mode with
    | debug => rw [read_debug t hbuf hmode, read_debug t.drained hbuf hmode]
    | normal =>
      cases hlines : t.source.lines with
      | nil => rw [read_exhausted t hbuf hlines, read_exhausted t.drained hbuf hlines]
      | cons line rest =>
        rw [read_pull t line rest hbuf hmode hlines, read_pull t.drained line rest hbuf hmode hlines]
        have hesc : t.drained.isEscapeLine line = t.isEscapeLine line := rfl
        rw [Terminal.takeLine, Terminal.takeLine, hesc]
        split
        · rfl
        · cases line <;> rfl

/-! ### Execution and the step -/

theorem exec_drainOutput (i : Instr) (s : State) :
    drainedResult (exec i (drainOutput s)) = drainedResult (exec i s) := by
  cases i with
  | halt | noop => rfl
  | set | eq | gt | add | mult | and | or | not =>
    simp only [exec, execSet, execEq, execGt, execAdd, execMult, execAnd, execOr, execNot, resolve_drainOutput,
      assignThenNext_drainOutput]
  | jmp a | out a => cases a <;> rfl
  | jt a b | jf a b => simp only [exec, execJt, execJf, resolve_drainOutput, branchIf_drainOutput]
  | push a | call a =>
    simp only [exec, execPush, execCall, resolve_drainOutput, pcPlus_drainOutput, pushThenGo_drainOutput]
  | mod a b c =>
    simp only [exec, execMod, resolve_drainOutput]
    split
    · rfl
    · exact assignThenNext_drainOutput _ _ _ s
  | rmem a b =>
    have hread : memRead (drainOutput s) (resolve s b) = memRead s (resolve s b) := rfl
    simp only [exec, execRmem, resolve_drainOutput, hread]
    cases memRead s (resolve s b) with
    | none => rfl
    | some v => exact assignThenNext_drainOutput _ _ _ s
  | wmem a b =>
    simp only [exec, execWmem, resolve_drainOutput, memWrite_drainOutput]
    cases memWrite s (resolve s a) (resolve s b) <;> rfl
  | pop a =>
    simp only [exec, execPop, popped_drainOutput]
    cases s.popped with
    | none => rfl
    | some p => exact assignThenNext_drainOutput _ _ _ p.2
  | ret =>
    simp only [exec, execRet, popped_drainOutput]
    cases s.popped <;> rfl
  | inp a =>
    have hterm : (drainOutput s).terminal = s.terminal.drained := rfl
    simp only [exec, execIn, inRead, hterm, read_drained]
    cases s.terminal.read.1 with
    | none => rfl
    | some c => exact assignThenNext_drainOutput _ _ _ (s.setTerminal s.terminal.read.2)

/-- The accumulator takes no part in the status or in the fetch. -/
theorem step_drainOutput (s : State) : drainedResult (step (drainOutput s)) = drainedResult (step s) := by
  have hstatus : (drainOutput s).status = s.status := rfl
  have hfetch : fetch (drainOutput s) = fetch s := rfl
  simp only [step, hstatus, hfetch]
  cases s.status with
  | running =>
    cases fetch s with
    | ok i => exact exec_drainOutput i s
    | error e => cases e <;> rfl
  | halted => rfl
  | faulted r => rfl

/-- Settles O54: the two steps answer the same up to the accumulator, which a stop does not have. -/
theorem drainingDoesNotAffectTheCore : Obligations.DrainingDoesNotAffectTheCore := by
  intro s
  have hstep := step_drainOutput s
  refine ⟨fun t ht => ?next, fun f hf => ?stops⟩
  case next => exact (drainedResult_eq_next _ _).1 (hstep.trans ((drainedResult_eq_next _ _).2 ⟨t, ht, rfl⟩))
  case stops => exact (drainedResult_eq_fault _ f).1 (hstep.trans ((drainedResult_eq_fault _ f).2 hf))

end Sys2Proof.Proofs.Drain
end

section
/-! SUPPORT. The rejected images (70_reset_and_hazards.md R352): the size is checked first, and then the words from the
first on. -/

namespace Sys2Proof.Proofs.LoadErrors

open Sys2Proof.Machine Sys2Proof.Safety
open Sys2Proof.Proofs.Load (length_wordsOfBytes toNat_getElem_wordsOfBytes)

theorem imageSizeOk_iff (bytes : List Byte) :
    imageSizeOk bytes = true ↔ bytes.length % 2 = 0 ∧ bytes.length ≤ 65536 := by
  simp [imageSizeOk, Config.memWords]

/-- A bad word with only legal words before it is the one that is found. -/
theorem firstIllegal_eq_some (ws : List Word) (n k : Nat) (hk : k < ws.length) (hbad : 32775 < (ws[k]).toNat)
    (hlegal : ∀ j (hj : j < k), (ws[j]).toNat ≤ 32775) : firstIllegal n ws = some (n + k, ws[k]) := by
  induction ws generalizing n k with
  | nil => exact absurd hk (Nat.not_lt_zero k)
  | cons w ws ih =>
    cases k with
    | zero => exact if_neg (Nat.not_le.2 hbad)
    | succ k =>
      have hfirst : w.toNat ≤ Config.maxLegalWord := hlegal 0 (Nat.succ_pos k)
      have hrest := ih (n + 1) k (Nat.lt_of_succ_lt_succ hk) hbad fun j hj => hlegal (j + 1) (Nat.succ_lt_succ hj)
      rw [firstIllegal, if_pos hfirst, hrest, Nat.add_right_comm n 1 k]
      rfl

theorem loadImage_of_bad_size (bytes : List Byte) (h : bytes.length % 2 = 1 ∨ 65536 < bytes.length) :
    loadImage bytes = .error { cause := .invalidImageSize, index := none, word := none } := by
  have hsize : ¬ imageSizeOk bytes = true := by
    rw [imageSizeOk_iff]
    omega
  rw [loadImage, if_neg hsize]

/-- Settles O13: the check of the size comes first, and the check of the words finds the first bad one. -/
theorem badImagesAreRejected : Obligations.BadImagesAreRejected := by
  refine fun bytes => ⟨fun k heven hmax hk hbad hlegal => ?word, fun hsize _ => loadImage_of_bad_size bytes hsize,
    fun hsize => ⟨_, loadImage_of_bad_size bytes hsize⟩⟩
  case word =>
    have hlen : k < (wordsOfBytes bytes).length := by rw [length_wordsOfBytes]; omega
    have hfound : firstIllegal 0 (wordsOfBytes bytes) = some (0 + k, (wordsOfBytes bytes)[k]) := by
      refine firstIllegal_eq_some _ 0 k hlen ?_ fun j hj => ?_
      · rwa [toNat_getElem_wordsOfBytes]
      · rw [toNat_getElem_wordsOfBytes]
        exact hlegal j hj
    have hword : BitVec.ofNat 16 (imageWord bytes k) = (wordsOfBytes bytes)[k] := by
      rw [← toNat_getElem_wordsOfBytes bytes k hlen, BitVec.ofNat_toNat, BitVec.setWidth_eq]
    simp only [loadImage, if_pos ((imageSizeOk_iff bytes).2 ⟨heven, hmax⟩), hfound, Nat.zero_add, hword]

end Sys2Proof.Proofs.LoadErrors
end

section
/-! SUPPORT. Self-modifying code and the end of a run (70_reset_and_hazards.md R361, R370): the next fetch is the first
of the later fetches, and the outcome of a run is the one its last state shows. -/

namespace Sys2Proof.Proofs.RunEnds

open Sys2Proof.Machine
open Sys2Proof.Proofs.StoredWord (storeIsSeenByEveryLaterFetch)

/-- Settles O48: with no step between, the next fetch is a later fetch; and a step executes what it fetched. -/
theorem storeIsSeenByTheNextFetch : Obligations.StoreIsSeenByTheNextFetch :=
  ⟨fun s t addr v p k hwf hstore => storeIsSeenByEveryLaterFetch s t t addr v p k hwf hstore (.refl t),
    fun s a b hs hf => step_of_fetch s (.wmem a b) hs hf⟩

/-- A run reports what its last state shows, and a stop where that shows nothing (70_reset_and_hazards.md R370). -/
theorem runLoop_outcome (fuel : Nat) (c c' : HostContext) (s t : State) (e : RunEnd)
    (h : runLoop fuel c s = (e, c', t)) : e = (endOf t).getD .stopped := by
  induction fuel generalizing c s with
  | zero => cases h; rfl
  | succ fuel ih =>
    simp only [runLoop] at h
    split at h
    · next hend => cases h; rw [hend]; rfl
    · next hend =>
      have hstop : RunEnd.stopped = (endOf s).getD .stopped := by rw [hend]; rfl
      split at h
      · cases h; exact hstop
      · split at h
        · exact ih _ _ h
        · cases h; exact hstop
        · cases h; exact hstop

/-- Settles O57: the outcome is read off the status of the last state, and for a running one off its input. -/
theorem runEndsAsItsStateShows : Obligations.RunEndsAsItsStateShows := by
  intro fuel c c' s t e h
  rw [runLoop_outcome fuel c c' s t e h, endOf]
  cases ht : t.status with
  | halted => simp
  | faulted r => simp
  | running => cases hinput : inputExhausted t <;> simp

end Sys2Proof.Proofs.RunEnds
end
